-- ==== Sys2Proof/Word.lean ====
section
/-! DEFINITION. The values the encoder handles: 8-bit characters, tokens, lines, register indices and the 32-bit
instruction word (`00_scope.md` R7, R8; `40_front_end.md` R84). -/

namespace Sys2Proof

/-- One character of a source line: an 8-bit code read as ASCII (R84). -/
abbrev Byte := BitVec 8

/-- The encoded instruction, `word[31]` most significant (R7, R50). -/
abbrev Word := BitVec 32

/-- A string key: a mnemonic, a register name or an operand token, as its characters in order. -/
abbrev Token := List Byte

/-- A raw source line, or a line of output text. -/
abbrev Line := List Byte

/-- A 5-bit register index, the content of `rd`, `rs1` and `rs2` (R51). -/
abbrev RegIndex := BitVec 5

/-- The 8-bit code of an ASCII character. -/
def ascii (c : Char) : Byte := BitVec.ofNat 8 c.toNat

/-- A string written out in ASCII characters. -/
def tok (cs : List Char) : Token := cs.map ascii

end Sys2Proof
end

