-- ==== Sys2Proof/Syntax.lean ====
section
/-! DEFINITION. What can be asked of the encoder: the mnemonics of `spec/opcode_table.json`, the operand forms, the
request record of the hardware block and the instructions themselves (`41_classifier_regdecoder.md` R105, R106;
files 42 to 45). -/

namespace Sys2Proof

/-- The four format classes; every mnemonic of the format table has exactly one (R15, R100). -/
inductive FormatClass where
  /-- register-register -/
  | R
  /-- immediate arithmetic or load -/
  | I
  /-- store -/
  | S
  /-- conditional branch -/
  | SB
  deriving DecidableEq, Repr

/-- The form of a request (R105), with the reserved port value 3 (R31), which matches no class. -/
inductive Form where
  /-- three register operands -/
  | rrr
  /-- two register operands, then an integer -/
  | rri
  /-- a register operand, then a memory reference -/
  | rm
  /-- the reserved port value -/
  | reserved
  deriving DecidableEq, Repr

/-- The operands of a request, each form with the fields it uses and no other (R105). Register operands are names:
looking them up is part of an instruction's meaning (R121, R141, R161, R171). -/
inductive Operands where
  /-- `r0, r1, r2` in source order -/
  | rrr (r0 r1 r2 : Token)
  /-- `r0, r1` in source order and the integer operand -/
  | rri (r0 r1 : Token) (imm : Int)
  /-- `r0` and the memory reference `offset(base)` -/
  | rm (r0 base : Token) (offset : Int)
  /-- the reserved form, which has no operands of its own -/
  | reserved
  deriving DecidableEq, Repr

/-- The request record presented to the hardware block (R29, R105). -/
structure HwReq where
  mn   : Token
  form : Form
  r0   : Token
  r1   : Token
  r2   : Token
  imm  : Int
  deriving DecidableEq, Repr

/-- The mnemonics of the default instance (R62 to R66), in the order of `spec/opcode_table.json`. -/
inductive Mnemonic where
  | add
  | sub
  | sll
  | slt
  | sltu
  | xor
  | srl
  | sra
  | or
  | and
  | addi
  | slti
  | sltiu
  | xori
  | ori
  | andi
  | lb
  | lh
  | lw
  | lbu
  | lhu
  | sb
  | sh
  | sw
  | beq
  | bne
  | blt
  | bge
  | bltu
  | bgeu
  deriving DecidableEq, Repr

/-- The instructions the encoder is asked to encode: one constructor per row of `spec/opcode_table.json`, each with
the operands of the request. -/
inductive Instr where
  /-- `add`: R122 -/
  | add (ops : Operands)
  /-- `sub`: R123 -/
  | sub (ops : Operands)
  /-- `sll`: R124 -/
  | sll (ops : Operands)
  /-- `slt`: R125 -/
  | slt (ops : Operands)
  /-- `sltu`: R126 -/
  | sltu (ops : Operands)
  /-- `xor`: R127 -/
  | xor (ops : Operands)
  /-- `srl`: R128 -/
  | srl (ops : Operands)
  /-- `sra`: R129 -/
  | sra (ops : Operands)
  /-- `or`: R130 -/
  | or (ops : Operands)
  /-- `and`: R131 -/
  | and (ops : Operands)
  /-- `addi`: R142 -/
  | addi (ops : Operands)
  /-- `slti`: R143 -/
  | slti (ops : Operands)
  /-- `sltiu`: R144 -/
  | sltiu (ops : Operands)
  /-- `xori`: R145 -/
  | xori (ops : Operands)
  /-- `ori`: R146 -/
  | ori (ops : Operands)
  /-- `andi`: R147 -/
  | andi (ops : Operands)
  /-- `lb`: R148 -/
  | lb (ops : Operands)
  /-- `lh`: R149 -/
  | lh (ops : Operands)
  /-- `lw`: R150 -/
  | lw (ops : Operands)
  /-- `lbu`: R151 -/
  | lbu (ops : Operands)
  /-- `lhu`: R152 -/
  | lhu (ops : Operands)
  /-- `sb`: R162 -/
  | sb (ops : Operands)
  /-- `sh`: R163 -/
  | sh (ops : Operands)
  /-- `sw`: R164 -/
  | sw (ops : Operands)
  /-- `beq`: R172 -/
  | beq (ops : Operands)
  /-- `bne`: R173 -/
  | bne (ops : Operands)
  /-- `blt`: R174 -/
  | blt (ops : Operands)
  /-- `bge`: R175 -/
  | bge (ops : Operands)
  /-- `bltu`: R176 -/
  | bltu (ops : Operands)
  /-- `bgeu`: R177 -/
  | bgeu (ops : Operands)
  deriving DecidableEq, Repr

/-- The mnemonic of an instruction. -/
def Instr.mnemonic : Instr → Mnemonic
  | .add _ => .add
  | .sub _ => .sub
  | .sll _ => .sll
  | .slt _ => .slt
  | .sltu _ => .sltu
  | .xor _ => .xor
  | .srl _ => .srl
  | .sra _ => .sra
  | .or _ => .or
  | .and _ => .and
  | .addi _ => .addi
  | .slti _ => .slti
  | .sltiu _ => .sltiu
  | .xori _ => .xori
  | .ori _ => .ori
  | .andi _ => .andi
  | .lb _ => .lb
  | .lh _ => .lh
  | .lw _ => .lw
  | .lbu _ => .lbu
  | .lhu _ => .lhu
  | .sb _ => .sb
  | .sh _ => .sh
  | .sw _ => .sw
  | .beq _ => .beq
  | .bne _ => .bne
  | .blt _ => .blt
  | .bge _ => .bge
  | .bltu _ => .bltu
  | .bgeu _ => .bgeu

/-- The operands of an instruction. -/
def Instr.operands : Instr → Operands
  | .add ops => ops
  | .sub ops => ops
  | .sll ops => ops
  | .slt ops => ops
  | .sltu ops => ops
  | .xor ops => ops
  | .srl ops => ops
  | .sra ops => ops
  | .or ops => ops
  | .and ops => ops
  | .addi ops => ops
  | .slti ops => ops
  | .sltiu ops => ops
  | .xori ops => ops
  | .ori ops => ops
  | .andi ops => ops
  | .lb ops => ops
  | .lh ops => ops
  | .lw ops => ops
  | .lbu ops => ops
  | .lhu ops => ops
  | .sb ops => ops
  | .sh ops => ops
  | .sw ops => ops
  | .beq ops => ops
  | .bne ops => ops
  | .blt ops => ops
  | .bge ops => ops
  | .bltu ops => ops
  | .bgeu ops => ops

/-- The instruction with a given mnemonic and operands. -/
def Mnemonic.instr : Mnemonic → Operands → Instr
  | .add, ops => .add ops
  | .sub, ops => .sub ops
  | .sll, ops => .sll ops
  | .slt, ops => .slt ops
  | .sltu, ops => .sltu ops
  | .xor, ops => .xor ops
  | .srl, ops => .srl ops
  | .sra, ops => .sra ops
  | .or, ops => .or ops
  | .and, ops => .and ops
  | .addi, ops => .addi ops
  | .slti, ops => .slti ops
  | .sltiu, ops => .sltiu ops
  | .xori, ops => .xori ops
  | .ori, ops => .ori ops
  | .andi, ops => .andi ops
  | .lb, ops => .lb ops
  | .lh, ops => .lh ops
  | .lw, ops => .lw ops
  | .lbu, ops => .lbu ops
  | .lhu, ops => .lhu ops
  | .sb, ops => .sb ops
  | .sh, ops => .sh ops
  | .sw, ops => .sw ops
  | .beq, ops => .beq ops
  | .bne, ops => .bne ops
  | .blt, ops => .blt ops
  | .bge, ops => .bge ops
  | .bltu, ops => .bltu ops
  | .bgeu, ops => .bgeu ops

/-- Every mnemonic, in the order of the table. -/
def Mnemonic.all : List Mnemonic :=
  [.add, .sub, .sll, .slt, .sltu, .xor, .srl, .sra, .or, .and,
   .addi, .slti, .sltiu, .xori, .ori, .andi, .lb, .lh, .lw, .lbu, .lhu,
   .sb, .sh, .sw,
   .beq, .bne, .blt, .bge, .bltu, .bgeu]

end Sys2Proof
end

