-- ==== Sys2Proof/Machine/Tables.lean ====
section
/-! DEFINITION. The five constant tables FMT, OPC, F3, F7 and REG (`10_state.md` R23 to R27), their lookups
(`41_classifier_regdecoder.md` R100, R103, R104), what an instance must meet (R24, R61) and the instances the
spec gives: the default one (`30_encoding.md` R62 to R66) and the one restricted to what the source fixes (R61). -/

namespace Sys2Proof

/-! ## Keys -/

/-- The spelling of each mnemonic, lower case, compared exactly (R71, R100). -/
def Mnemonic.key : Mnemonic → Token
  | .add => tok ['a', 'd', 'd']
  | .sub => tok ['s', 'u', 'b']
  | .sll => tok ['s', 'l', 'l']
  | .slt => tok ['s', 'l', 't']
  | .sltu => tok ['s', 'l', 't', 'u']
  | .xor => tok ['x', 'o', 'r']
  | .srl => tok ['s', 'r', 'l']
  | .sra => tok ['s', 'r', 'a']
  | .or => tok ['o', 'r']
  | .and => tok ['a', 'n', 'd']
  | .addi => tok ['a', 'd', 'd', 'i']
  | .slti => tok ['s', 'l', 't', 'i']
  | .sltiu => tok ['s', 'l', 't', 'i', 'u']
  | .xori => tok ['x', 'o', 'r', 'i']
  | .ori => tok ['o', 'r', 'i']
  | .andi => tok ['a', 'n', 'd', 'i']
  | .lb => tok ['l', 'b']
  | .lh => tok ['l', 'h']
  | .lw => tok ['l', 'w']
  | .lbu => tok ['l', 'b', 'u']
  | .lhu => tok ['l', 'h', 'u']
  | .sb => tok ['s', 'b']
  | .sh => tok ['s', 'h']
  | .sw => tok ['s', 'w']
  | .beq => tok ['b', 'e', 'q']
  | .bne => tok ['b', 'n', 'e']
  | .blt => tok ['b', 'l', 't']
  | .bge => tok ['b', 'g', 'e']
  | .bltu => tok ['b', 'l', 't', 'u']
  | .bgeu => tok ['b', 'g', 'e', 'u']

/-- The mnemonic a token spells, if it is one of the table's. -/
def Mnemonic.ofKey (t : Token) : Option Mnemonic := Mnemonic.all.find? (fun m => m.key == t)

/-- ASCII letters, digits and underscore: the characters of a table key (R24) and of a NAME (R89). -/
def isNameChar (b : Byte) : Bool :=
  (0x30 ≤ b.toNat && b.toNat ≤ 0x39) || (0x41 ≤ b.toNat && b.toNat ≤ 0x5A) ||
    (0x61 ≤ b.toNat && b.toNat ≤ 0x7A) || b.toNat == 0x5F

/-- The width in bytes of a string key on a hardware port, `KEY_BYTES` (R6). -/
def keyBytes : Nat := 8

/-- A key is one to `KEY_BYTES` letters, digits and underscores (R24). -/
def isKey (t : Token) : Bool := !t.isEmpty && t.length ≤ keyBytes && t.all isNameChar

/-- The ASCII digit of a number below ten. -/
def digitChar (n : Nat) : Byte := BitVec.ofNat 8 (0x30 + n)

/-- The numeric name of a register: `x` and the decimal index without leading zeros (R25). -/
def xName (r : RegIndex) : Token :=
  if r.toNat < 10 then [ascii 'x', digitChar r.toNat]
  else [ascii 'x', digitChar (r.toNat / 10), digitChar (r.toNat % 10)]

/-! ## The tables -/

/-- The five tables, each a list of keys with their values (R23). They are constants of one realisation: no rule
writes them. -/
structure Tables where
  fmt : List (Token × FormatClass)
  opc : List (Token × BitVec 7)
  f3  : List (Token × BitVec 3)
  f7  : List (Token × BitVec 7)
  reg : List (Token × RegIndex)
  deriving DecidableEq, Repr

/-- The value a table holds under a key, compared as an exact string (R100, R104). -/
def lookup {α : Type} (table : List (Token × α)) (key : Token) : Option α :=
  (table.find? (fun row => row.1 == key)).map (·.2)

/-- The classifier: `FMT(mn)`, or nothing for an unknown mnemonic (R100). -/
def Tables.classOf (t : Tables) (mn : Token) : Option FormatClass := lookup t.fmt mn

/-- The register decoder: `REG(name)`, or nothing for an unknown register (R104). -/
def Tables.regOf (t : Tables) (name : Token) : Option RegIndex := lookup t.reg name

/-- The constant fields a mnemonic selects, tagged by its class; only class R has a funct7 (R102, R103). -/
inductive RowConstants where
  | R (f7 : BitVec 7) (f3 : BitVec 3) (opc : BitVec 7)
  | I (f3 : BitVec 3) (opc : BitVec 7)
  | S (f3 : BitVec 3) (opc : BitVec 7)
  | SB (f3 : BitVec 3) (opc : BitVec 7)
  deriving DecidableEq, Repr

/-- The class of a row of constants. -/
def RowConstants.cls : RowConstants → FormatClass
  | .R _ _ _ => .R
  | .I _ _ => .I
  | .S _ _ => .S
  | .SB _ _ => .SB

/-- The constants of a mnemonic of a class, from OPC, F3 and, for class R, F7 (R103). -/
def Tables.constantsOf (t : Tables) (mn : Token) : FormatClass → Option RowConstants
  | .R => do some (.R (← lookup t.f7 mn) (← lookup t.f3 mn) (← lookup t.opc mn))
  | .I => do some (.I (← lookup t.f3 mn) (← lookup t.opc mn))
  | .S => do some (.S (← lookup t.f3 mn) (← lookup t.opc mn))
  | .SB => do some (.SB (← lookup t.f3 mn) (← lookup t.opc mn))

/-- A mnemonic's row: its class and then its constants (R100, R103). For an instance that meets the invariant this
is nothing exactly for the mnemonics that are no key of FMT. -/
def Tables.rowOf (t : Tables) (mn : Token) : Option RowConstants := do t.constantsOf mn (← t.classOf mn)

/-! ## The invariant -/

/-- No key stands twice. -/
def keysDistinct {α : Type} : List (Token × α) → Bool
  | [] => true
  | row :: rest => rest.all (fun r => r.1 != row.1) && keysDistinct rest

/-- A table is a function on keys of the permitted shape (R24). -/
def isMap {α : Type} (table : List (Token × α)) : Bool := table.all (fun row => isKey row.1) && keysDistinct table

/-- The well-formedness invariant of R24: every table is a function on keys of the permitted shape, every mnemonic
of FMT has an opcode and a funct3, and every class-R mnemonic a funct7. -/
def Tables.wf (t : Tables) : Bool :=
  isMap t.fmt && isMap t.opc && isMap t.f3 && isMap t.f7 && isMap t.reg &&
    t.fmt.all (fun row => (t.constantsOf row.1 row.2).isSome)

/-- What the source fixes of the five mnemonics it names, Tier S (R62): the whole row of `add`, `addi` and `lw`, and of
`sw` and `beq` "the class only". Every instance holds it (R61). -/
def Tables.containsTierS (t : Tables) : Bool :=
  t.rowOf (Mnemonic.key .add) == some (.R 0b0000000 0b000 0b0110011) &&
    t.rowOf (Mnemonic.key .addi) == some (.I 0b000 0b0010011) &&
    t.rowOf (Mnemonic.key .lw) == some (.I 0b010 0b0000011) &&
    t.classOf (Mnemonic.key .sw) == some .S && t.classOf (Mnemonic.key .beq) == some .SB

/-! ## The instances the spec gives -/

/-- One row of the instruction tables as `30_encoding.md` prints it. -/
structure TableRow where
  mn  : Token
  cls : FormatClass
  opc : BitVec 7
  f3  : BitVec 3
  f7  : Option (BitVec 7)
  deriving DecidableEq, Repr

/-- Class R of the default instance: `add` (R62) and R63. -/
def rowsR : List TableRow :=
  [ ⟨Mnemonic.key .add, .R, 0b0110011#7, 0b000#3, some 0b0000000#7⟩,
    ⟨Mnemonic.key .sub, .R, 0b0110011#7, 0b000#3, some 0b0100000#7⟩,
    ⟨Mnemonic.key .sll, .R, 0b0110011#7, 0b001#3, some 0b0000000#7⟩,
    ⟨Mnemonic.key .slt, .R, 0b0110011#7, 0b010#3, some 0b0000000#7⟩,
    ⟨Mnemonic.key .sltu, .R, 0b0110011#7, 0b011#3, some 0b0000000#7⟩,
    ⟨Mnemonic.key .xor, .R, 0b0110011#7, 0b100#3, some 0b0000000#7⟩,
    ⟨Mnemonic.key .srl, .R, 0b0110011#7, 0b101#3, some 0b0000000#7⟩,
    ⟨Mnemonic.key .sra, .R, 0b0110011#7, 0b101#3, some 0b0100000#7⟩,
    ⟨Mnemonic.key .or, .R, 0b0110011#7, 0b110#3, some 0b0000000#7⟩,
    ⟨Mnemonic.key .and, .R, 0b0110011#7, 0b111#3, some 0b0000000#7⟩ ]

/-- Immediate arithmetic of class I: `addi` (R62) and R64. -/
def rowsImmediate : List TableRow :=
  [ ⟨Mnemonic.key .addi, .I, 0b0010011#7, 0b000#3, none⟩,
    ⟨Mnemonic.key .slti, .I, 0b0010011#7, 0b010#3, none⟩,
    ⟨Mnemonic.key .sltiu, .I, 0b0010011#7, 0b011#3, none⟩,
    ⟨Mnemonic.key .xori, .I, 0b0010011#7, 0b100#3, none⟩,
    ⟨Mnemonic.key .ori, .I, 0b0010011#7, 0b110#3, none⟩,
    ⟨Mnemonic.key .andi, .I, 0b0010011#7, 0b111#3, none⟩ ]

/-- Loads of class I: `lw` (R62) and R65. -/
def rowsLoad : List TableRow :=
  [ ⟨Mnemonic.key .lb, .I, 0b0000011#7, 0b000#3, none⟩,
    ⟨Mnemonic.key .lh, .I, 0b0000011#7, 0b001#3, none⟩,
    ⟨Mnemonic.key .lw, .I, 0b0000011#7, 0b010#3, none⟩,
    ⟨Mnemonic.key .lbu, .I, 0b0000011#7, 0b100#3, none⟩,
    ⟨Mnemonic.key .lhu, .I, 0b0000011#7, 0b101#3, none⟩ ]

/-- Class S: `sw` (R62) and R65. -/
def rowsS : List TableRow :=
  [ ⟨Mnemonic.key .sb, .S, 0b0100011#7, 0b000#3, none⟩,
    ⟨Mnemonic.key .sh, .S, 0b0100011#7, 0b001#3, none⟩,
    ⟨Mnemonic.key .sw, .S, 0b0100011#7, 0b010#3, none⟩ ]

/-- Class SB: `beq` (R62) and R66. -/
def rowsSB : List TableRow :=
  [ ⟨Mnemonic.key .beq, .SB, 0b1100011#7, 0b000#3, none⟩,
    ⟨Mnemonic.key .bne, .SB, 0b1100011#7, 0b001#3, none⟩,
    ⟨Mnemonic.key .blt, .SB, 0b1100011#7, 0b100#3, none⟩,
    ⟨Mnemonic.key .bge, .SB, 0b1100011#7, 0b101#3, none⟩,
    ⟨Mnemonic.key .bltu, .SB, 0b1100011#7, 0b110#3, none⟩,
    ⟨Mnemonic.key .bgeu, .SB, 0b1100011#7, 0b111#3, none⟩ ]

/-- The thirty rows of the default instance (R62 to R66). -/
def defaultRows : List TableRow := rowsR ++ rowsImmediate ++ rowsLoad ++ rowsS ++ rowsSB

/-- The mnemonics the source itself names: Tier S (R62). -/
def tierS : List Mnemonic := [.add, .addi, .lw, .sw, .beq]

/-- The rows of Tier S (R62). -/
def tierSRows : List TableRow := defaultRows.filter (fun row => tierS.any (fun m => m.key == row.mn))

/-- The 32 numeric names (R25). -/
def numericNames : List (Token × RegIndex) := (List.finRange 32).map (fun n => (xName (.ofFin n), .ofFin n))

/-- The two alias names whose index the source gives (R26). -/
def sourceAliases : List (Token × RegIndex) := [(tok ['s', '0'], 8), (tok ['f', 'p'], 8)]

/-- The other alias names, with the indices of the standard ABI (R27). -/
def abiAliases : List (Token × RegIndex) :=
  [ (tok ['z', 'e', 'r', 'o'], 0), (tok ['r', 'a'], 1), (tok ['s', 'p'], 2),
    (tok ['g', 'p'], 3), (tok ['t', 'p'], 4), (tok ['t', '0'], 5),
    (tok ['t', '1'], 6), (tok ['t', '2'], 7), (tok ['s', '1'], 9),
    (tok ['a', '0'], 10), (tok ['a', '1'], 11), (tok ['a', '2'], 12),
    (tok ['a', '3'], 13), (tok ['a', '4'], 14), (tok ['a', '5'], 15),
    (tok ['a', '6'], 16), (tok ['a', '7'], 17), (tok ['s', '2'], 18),
    (tok ['s', '3'], 19), (tok ['s', '4'], 20), (tok ['s', '5'], 21),
    (tok ['s', '6'], 22), (tok ['s', '7'], 23), (tok ['s', '8'], 24),
    (tok ['s', '9'], 25), (tok ['s', '1', '0'], 26), (tok ['s', '1', '1'], 27),
    (tok ['t', '3'], 28), (tok ['t', '4'], 29), (tok ['t', '5'], 30),
    (tok ['t', '6'], 31) ]

/-- The five tables made of instruction rows and register names. -/
def Tables.ofRows (rows : List TableRow) (reg : List (Token × RegIndex)) : Tables where
  fmt := rows.map (fun row => (row.mn, row.cls))
  opc := rows.map (fun row => (row.mn, row.opc))
  f3  := rows.map (fun row => (row.mn, row.f3))
  f7  := rows.filterMap (fun row => row.f7.map (fun f7 => (row.mn, f7)))
  reg := reg

/-- The default instance: thirty mnemonics (R62 to R66) and 65 register names (R27). -/
def Tables.defaultInstance : Tables := .ofRows defaultRows (numericNames ++ sourceAliases ++ abiAliases)

/-- The instance restricted to what the source fixes: five mnemonics (R61) and 34 register names (R27). -/
def Tables.sourceOnly : Tables := .ofRows tierSRows (numericNames ++ sourceAliases)

/-- The default instance satisfies the invariant (R24). -/
theorem Tables.defaultInstance_wf : Tables.defaultInstance.wf = true := by decide +kernel

/-- So does the restricted one. -/
theorem Tables.sourceOnly_wf : Tables.sourceOnly.wf = true := by decide +kernel

/-- The default instance contains Tier S (R61). -/
theorem Tables.defaultInstance_containsTierS : Tables.defaultInstance.containsTierS = true := by decide +kernel

/-- So does the restricted one. -/
theorem Tables.sourceOnly_containsTierS : Tables.sourceOnly.containsTierS = true := by decide +kernel

end Sys2Proof
end

