-- ==== Sys2Proof/Config.lean ====
section
/-! DEFINITION. What a realisation fixes (`00_scope.md` R6): the tables with their invariant, the overflow policy, and
the open parameters, which stand here as constants with no body. -/

namespace Sys2Proof

/-- `IMM_OVERFLOW_POLICY`: what the binary formatter does outside `-2^w <= v < 2^w` (R6, R82). -/
inductive OverflowPolicy where
  | error
  | truncate
  deriving DecidableEq, Repr

/-- The three errors (R190). -/
inductive ErrorKind where
  | unknownMnemonic
  | unknownRegister
  | malformedOperand
  deriving DecidableEq, Repr, Inhabited

/-- The error value of the text contract: kind, offending token and the original line (R194). -/
structure EncodeError where
  kind : ErrorKind
  tok  : Token
  line : Line
  deriving DecidableEq, Repr

/-- The request inputs of the block at the port level (R31). -/
structure PortIn where
  reqValid : Bool
  mnKey    : BitVec 64
  form     : BitVec 2
  r0Key    : BitVec 64
  r1Key    : BitVec 64
  r2Key    : BitVec 64
  immIn    : BitVec 32
  deriving DecidableEq, Repr

/-- The response outputs of the block at the port level (R32). -/
structure PortOut where
  respValid : Bool
  mnHit     : Bool
  cls       : BitVec 2
  status    : BitVec 2
  errSlot   : BitVec 3
  word      : Word
  deriving DecidableEq, Repr

/-- The response outputs that R32 leaves unspecified where they have no meaning. -/
structure FreeWires where
  status  : BitVec 2
  errSlot : BitVec 3
  word    : Word
  deriving DecidableEq, Repr, Inhabited

/-- The order in which a consumer stores the four bytes of a word (R41). -/
inductive ByteOrder where
  | leastSignificantFirst
  | mostSignificantFirst
  deriving DecidableEq, Repr, Inhabited

/-- The parameters of the hardware block that its rules read. An instance of the tables that fails the invariant of
R24 or does not contain Tier S (R61) is refused: it makes no `Config`. -/
structure Config where
  tables : Tables
  policy : OverflowPolicy
  wf     : tables.wf = true
  tierS  : tables.containsTierS = true
  deriving DecidableEq, Repr

/-- The configuration made of a table instance, or nothing where the instance is refused (R24, R61). -/
def Config.ofTables (t : Tables) (p : OverflowPolicy) : Option Config :=
  if h : t.wf = true ∧ t.containsTierS = true then some ⟨t, p, h.1, h.2⟩ else none

/-- The values of R6 for this hardware: the default tables and the policy `error`. -/
def Config.defaultInstance : Config :=
  ⟨.defaultInstance, .error, Tables.defaultInstance_wf, Tables.defaultInstance_containsTierS⟩

/-- The default tables under the alternative policy `truncate` (R82). -/
def Config.truncating : Config :=
  ⟨.defaultInstance, .truncate, Tables.defaultInstance_wf, Tables.defaultInstance_containsTierS⟩

/-- The tables restricted to what the source fixes, policy `error` (R61). -/
def Config.sourceOnly : Config :=
  ⟨.sourceOnly, .error, Tables.sourceOnly_wf, Tables.sourceOnly_containsTierS⟩

/-- FREE VALUE: what `status`, `err_slot` and `word` carry where R32 leaves them unspecified. Combinational wires depend
on the present inputs and the realisation alone (R30). Log entry 4. -/
opaque Config.unspecifiedOut : Config → PortIn → FreeWires

/-- FREE VALUE: what `cls` carries where `mn_hit` is 0 and it has no meaning: a function of `mn_key` alone (R32, R211).
Log entry 4. -/
opaque Config.clsOnMiss : Config → BitVec 64 → BitVec 2

/-- FREE VALUE: the open parameter `DIAG` (R6, R200), before its constraints. Log entry 5. -/
opaque Config.diagText : EncodeError → Line

/-- FREE VALUE: the open parameter `BYTE_ORDER` (R6, R41). No rule of the block reads it. Log entry 6. -/
opaque Config.byteOrder : ByteOrder

end Sys2Proof
end

