-- ==== Sys2Proof/Machine/Formatter.lean ====
section
/-! DEFINITION. The binary formatter `bin(v, w)` (`40_front_end.md` R80 to R83) and the reading of a bit vector as a
string (`00_scope.md` R8). -/

namespace Sys2Proof.Machine

/-- `-2^w <= v < 2^w`: the values the formatter takes under either policy (R80, R81). -/
def inDomain (v : Int) (w : Nat) : Bool := decide (-((2 ^ w : Nat) : Int) ≤ v ∧ v < ((2 ^ w : Nat) : Int))

/-- `v mod 2^w` as a bit vector (R9, R82). -/
def modBits (v : Int) (w : Nat) : BitVec w := BitVec.ofNat w (v % ((2 ^ w : Nat) : Int)).toNat

/-- The binary formatter; nothing where it raises `MalformedOperand` (R82). -/
def bin (p : OverflowPolicy) (v : Int) (w : Nat) : Option (BitVec w) :=
  if inDomain v w then some (modBits v w)
  else match p with
    | .error => none
    | .truncate => some (modBits v w)

/-- The character of a bit. -/
def bitChar (b : Bool) : Byte := if b then ascii '1' else ascii '0'

/-- `str(v)`: the bits of `v` as characters, most significant first (R8). -/
def bitString {n : Nat} (v : BitVec n) : Line := (List.range n).map (fun k => bitChar (v.getLsbD (n - 1 - k)))

/-- The bytes of a word in the order a consumer stores them (R41). -/
def storedBytes (o : ByteOrder) (w : Word) : List Byte :=
  let low := [w.extractLsb' 0 8, w.extractLsb' 8 8, w.extractLsb' 16 8, w.extractLsb' 24 8]
  match o with
  | .leastSignificantFirst => low
  | .mostSignificantFirst => low.reverse

end Sys2Proof.Machine
end

