-- ==== Sys2Proof/WellFormed.lean ====
section
/-! DEFINITION. Well-formed instructions: those the encoder of a configuration has a word for. Its conditions are the
negations of the error causes of R108, stated apart from the machine. -/

namespace Sys2Proof

/-- The pairs of a class and an operand form that R106 lists. -/
def Operands.fits : Operands → FormatClass → Bool
  | .rrr _ _ _, .R => true
  | .rri _ _ _, .I => true
  | .rm _ _ _, .I => true
  | .rm _ _ _, .S => true
  | .rri _ _ _, .SB => true
  | _, _ => false

/-- The register names among the operands (R105, R192). -/
def Operands.names : Operands → List Token
  | .rrr r0 r1 r2 => [r0, r1, r2]
  | .rri r0 r1 _ => [r0, r1]
  | .rm r0 base _ => [r0, base]
  | .reserved => []

/-- The integer among the operands (R105). -/
def Operands.int : Operands → Option Int
  | .rrr _ _ _ => none
  | .rri _ _ imm => some imm
  | .rm _ _ offset => some offset
  | .reserved => none

/-- The width of the immediate field of a class; class R has none (R106). -/
def FormatClass.immWidth : FormatClass → Nat
  | .R => 0
  | .I => 12
  | .S => 12
  | .SB => 13

/-- The mnemonic is a key of FMT and the form is one its class accepts (R100, R106). -/
def Instr.formOk (c : Config) (i : Instr) : Bool :=
  (c.tables.classOf i.mnemonic.key).any (fun cls => i.operands.fits cls)

/-- Every register name is a key of REG (R104). -/
def Instr.namesOk (c : Config) (i : Instr) : Bool := i.operands.names.all (fun n => (c.tables.regOf n).isSome)

/-- The immediate is in the range the formatter accepts under the policy (R60, R82). -/
def Instr.immOk (c : Config) (i : Instr) : Bool :=
  i.operands.int.all fun v =>
    (c.tables.classOf i.mnemonic.key).all fun cls => c.policy == .truncate || Machine.inDomain v cls.immWidth

/-- The instruction has a word (R108). -/
def Instr.wellFormed (c : Config) (i : Instr) : Bool := i.formOk c && i.namesOk c && i.immOk c

end Sys2Proof
end

