-- ==== Sys2Proof/Decode.lean ====
section
/-! DEFINITION. The opcode table as masks and patterns (`30_encoding.md` R67), a decoder made of it, and an encoder from
the same table. The block holds no decoder (R5): this one turns a word back into the request that asks for it, spelled
with numeric register names and the immediate that reads back from the word. -/

namespace Sys2Proof

/-- One row of `spec/opcode_table.json`. -/
structure OpcodeRow where
  mn      : Mnemonic
  cls     : FormatClass
  mask    : Word
  pattern : Word
  deriving DecidableEq, Repr

/-- The mask of class R: funct7, funct3 and opcode (R63). -/
def maskR : Word := 0xFE00707F

/-- The mask of classes I, S and SB: funct3 and opcode (R64 to R66). -/
def maskISB : Word := 0x0000707F

/-- The thirty rows, `match` as the table prints it (R67). -/
def opcodeRows : List OpcodeRow :=
  [ ⟨.add, .R, maskR, 0x00000033⟩,
    ⟨.sub, .R, maskR, 0x40000033⟩,
    ⟨.sll, .R, maskR, 0x00001033⟩,
    ⟨.slt, .R, maskR, 0x00002033⟩,
    ⟨.sltu, .R, maskR, 0x00003033⟩,
    ⟨.xor, .R, maskR, 0x00004033⟩,
    ⟨.srl, .R, maskR, 0x00005033⟩,
    ⟨.sra, .R, maskR, 0x40005033⟩,
    ⟨.or, .R, maskR, 0x00006033⟩,
    ⟨.and, .R, maskR, 0x00007033⟩ ] ++
  [ ⟨.addi, .I, maskISB, 0x00000013⟩,
    ⟨.slti, .I, maskISB, 0x00002013⟩,
    ⟨.sltiu, .I, maskISB, 0x00003013⟩,
    ⟨.xori, .I, maskISB, 0x00004013⟩,
    ⟨.ori, .I, maskISB, 0x00006013⟩,
    ⟨.andi, .I, maskISB, 0x00007013⟩,
    ⟨.lb, .I, maskISB, 0x00000003⟩,
    ⟨.lh, .I, maskISB, 0x00001003⟩,
    ⟨.lw, .I, maskISB, 0x00002003⟩,
    ⟨.lbu, .I, maskISB, 0x00004003⟩,
    ⟨.lhu, .I, maskISB, 0x00005003⟩ ] ++
  [ ⟨.sb, .S, maskISB, 0x00000023⟩,
    ⟨.sh, .S, maskISB, 0x00001023⟩,
    ⟨.sw, .S, maskISB, 0x00002023⟩ ] ++
  [ ⟨.beq, .SB, maskISB, 0x00000063⟩,
    ⟨.bne, .SB, maskISB, 0x00001063⟩,
    ⟨.blt, .SB, maskISB, 0x00004063⟩,
    ⟨.bge, .SB, maskISB, 0x00005063⟩,
    ⟨.bltu, .SB, maskISB, 0x00006063⟩,
    ⟨.bgeu, .SB, maskISB, 0x00007063⟩ ]

/-- The row of a mnemonic. -/
def OpcodeRow.of (m : Mnemonic) : Option OpcodeRow := opcodeRows.find? (fun r => r.mn == m)

/-- Whether a word has the constant bits of a row (R67). -/
def OpcodeRow.fits (r : OpcodeRow) (w : Word) : Bool := w &&& r.mask == r.pattern

/-- The row of a load: its opcode is `0000011` (R65). -/
def OpcodeRow.isLoad (r : OpcodeRow) : Bool := r.pattern.extractLsb' 0 7 == 0b0000011#7

/-! ## Fields of a word (R51 to R55) -/

def fieldRd (w : Word) : RegIndex := w.extractLsb' 7 5
def fieldRs1 (w : Word) : RegIndex := w.extractLsb' 15 5
def fieldRs2 (w : Word) : RegIndex := w.extractLsb' 20 5

/-- The immediate of an I word (R57). -/
def fieldImmI (w : Word) : BitVec 12 := w.extractLsb' 20 12

/-- The immediate of an S word, put together again (R58). -/
def fieldImmS (w : Word) : BitVec 12 := w.extractLsb' 25 7 ++ w.extractLsb' 7 5

/-- The offset of an SB word, put together again, with bit 0 clear (R59, R170). -/
def fieldImmSB (w : Word) : BitVec 13 :=
  w.extractLsb' 31 1 ++ w.extractLsb' 7 1 ++ w.extractLsb' 25 6 ++ w.extractLsb' 8 4 ++ 0#1

/-! ## Decoding -/

/-- Why a word is rejected. -/
inductive DecodeError where
  /-- the constant bits are those of no row of the table -/
  | noRow
  deriving DecidableEq, Repr

/-- A register and an integer operand in the usual form of a row: `offset(base)` for a load (section 3 of
`43_i_format.md`). -/
def operandsI (r : OpcodeRow) (r0 r1 : Token) (imm : Int) : Operands :=
  if r.isLoad then .rm r0 r1 imm else .rri r0 r1 imm

/-- The operands that ask for a word of a row. -/
def OpcodeRow.operands (r : OpcodeRow) (w : Word) : Operands :=
  match r.cls with
  | .R => .rrr (xName (fieldRd w)) (xName (fieldRs1 w)) (xName (fieldRs2 w))
  | .I => operandsI r (xName (fieldRd w)) (xName (fieldRs1 w)) (fieldImmI w).toInt
  | .S => .rm (xName (fieldRs2 w)) (xName (fieldRs1 w)) (fieldImmS w).toInt
  | .SB => .rri (xName (fieldRs1 w)) (xName (fieldRs2 w)) (fieldImmSB w).toInt

/-- The instruction whose word this is, or a rejection. -/
def decodeWord (w : Word) : Except DecodeError Instr :=
  match opcodeRows.find? (fun r => r.fits w) with
  | some r => .ok (r.mn.instr (r.operands w))
  | none => .error .noRow

/-- The decoder on the bits of a row of the opcode table; every bit above `nbits` is 0. -/
def decodeTableWord (nbits w : Nat) : Option Instr :=
  if nbits ≤ 32 && w < 2 ^ nbits then
    match decodeWord (BitVec.ofNat 32 w) with
    | .ok i => some i
    | .error _ => none
  else none

/-! ## Encoding -/

/-- A field laid into a word at its lowest position. -/
def place {n : Nat} (v : BitVec n) (low : Nat) : Word := v.setWidth 32 <<< low

/-- The operand bits of a word of a class, for register indices and an immediate field; the scattered fields of S and
SB by their positions (R51 to R55). -/
def placeR (rd rs1 rs2 : RegIndex) : Word := place rd 7 ||| place rs1 15 ||| place rs2 20
def placeI (rd rs1 : RegIndex) (imm : BitVec 12) : Word := place rd 7 ||| place rs1 15 ||| place imm 20
def placeS (rs1 rs2 : RegIndex) (imm : BitVec 12) : Word :=
  place (imm.extractLsb' 0 5) 7 ||| place rs1 15 ||| place rs2 20 ||| place (imm.extractLsb' 5 7) 25
def placeSB (rs1 rs2 : RegIndex) (imm : BitVec 13) : Word :=
  place (imm.extractLsb' 11 1) 7 ||| place (imm.extractLsb' 1 4) 8 ||| place rs1 15 ||| place rs2 20 |||
    place (imm.extractLsb' 5 6) 25 ||| place (imm.extractLsb' 12 1) 31

/-- The index of a register name in the default instance (R27). -/
def regIndex (name : Token) : Option RegIndex := Tables.defaultInstance.regOf name

/-- The immediate field of a value in the accepted range (R60). -/
def immField (v : Int) (w : Nat) : Option (BitVec w) := Machine.bin .error v w

/-- The operand bits of an instruction of a class; nothing for operands that are not well-formed. -/
def operandBits (cls : FormatClass) (ops : Operands) : Option Word :=
  match cls, ops with
  | .R, .rrr r0 r1 r2 => do some (placeR (← regIndex r0) (← regIndex r1) (← regIndex r2))
  | .I, .rri r0 r1 imm => do some (placeI (← regIndex r0) (← regIndex r1) (← immField imm 12))
  | .I, .rm r0 base offset => do some (placeI (← regIndex r0) (← regIndex base) (← immField offset 12))
  | .S, .rm r0 base offset => do some (placeS (← regIndex base) (← regIndex r0) (← immField offset 12))
  | .SB, .rri r0 r1 offset => do some (placeSB (← regIndex r0) (← regIndex r1) (← immField offset 13))
  | _, _ => none

/-- The word of an instruction that is well-formed for the default instance and policy: the pattern of its row with
the operand bits laid in (R67). -/
def encode (i : Instr) : Option Word := do
  let r ← OpcodeRow.of i.mnemonic
  some (r.pattern ||| (← operandBits r.cls i.operands))

/-! ## The spelling the decoder gives back -/

/-- The numeric name of a register (R25, R26). -/
def canonName (t : Token) : Token := match regIndex t with
  | some r => xName r
  | none => t

/-- The value that reads back from a `w`-bit field (R60, R83). -/
def canonImm (v : Int) (w : Nat) : Int := (Machine.modBits v w).toInt

/-- The branch offset that reads back: bit 0 is dropped (R170). -/
def canonOffset (v : Int) : Int := (Machine.modBits v 13 &&& ~~~1#13).toInt

/-- Operands spelled with numeric names, the usual form and the immediate that reads back from the word. -/
def OpcodeRow.canon (r : OpcodeRow) (ops : Operands) : Operands :=
  match r.cls, ops with
  | .R, .rrr r0 r1 r2 => .rrr (canonName r0) (canonName r1) (canonName r2)
  | .I, .rri r0 r1 imm => operandsI r (canonName r0) (canonName r1) (canonImm imm 12)
  | .I, .rm r0 base offset => operandsI r (canonName r0) (canonName base) (canonImm offset 12)
  | .S, .rm r0 base offset => .rm (canonName r0) (canonName base) (canonImm offset 12)
  | .SB, .rri r0 r1 offset => .rri (canonName r0) (canonName r1) (canonOffset offset)
  | _, ops => ops

/-- An instruction in the decoder's spelling. -/
def Instr.canon (i : Instr) : Instr := match OpcodeRow.of i.mnemonic with
  | some r => i.mnemonic.instr (r.canon i.operands)
  | none => i

end Sys2Proof
end

