-- ==== Sys2Proof/Machine/Packers.lean ====
section
/-! DEFINITION. The four bit-packers: wiring only, total, no error (`42_r_format.md` R120, `43_i_format.md` R140,
`44_s_format.md` R160, `45_sb_format.md` R170). -/

namespace Sys2Proof.Machine

/-- `funct7 ++ rs2 ++ rs1 ++ funct3 ++ rd ++ opcode` (R120). -/
def packR (f7 : BitVec 7) (rs2 rs1 : RegIndex) (f3 : BitVec 3) (rd : RegIndex) (opc : BitVec 7) : Word :=
  f7 ++ rs2 ++ rs1 ++ f3 ++ rd ++ opc

/-- `imm[11:0] ++ rs1 ++ funct3 ++ rd ++ opcode` (R140). -/
def packI (i12 : BitVec 12) (rs1 : RegIndex) (f3 : BitVec 3) (rd : RegIndex) (opc : BitVec 7) : Word :=
  i12 ++ rs1 ++ f3 ++ rd ++ opc

/-- `imm[11:5] ++ rs2 ++ rs1 ++ funct3 ++ imm[4:0] ++ opcode` (R160). -/
def packS (i12 : BitVec 12) (rs2 rs1 : RegIndex) (f3 : BitVec 3) (opc : BitVec 7) : Word :=
  i12.extractLsb' 5 7 ++ rs2 ++ rs1 ++ f3 ++ i12.extractLsb' 0 5 ++ opc

/-- `imm[12] ++ imm[10:5] ++ rs2 ++ rs1 ++ funct3 ++ imm[4:1] ++ imm[11] ++ opcode`; `imm[0]` is not used (R170). -/
def packSB (i13 : BitVec 13) (rs2 rs1 : RegIndex) (f3 : BitVec 3) (opc : BitVec 7) : Word :=
  i13.extractLsb' 12 1 ++ i13.extractLsb' 5 6 ++ rs2 ++ rs1 ++ f3 ++ i13.extractLsb' 1 4 ++ i13.extractLsb' 11 1 ++ opc

end Sys2Proof.Machine
end

