-- ==== Sys2Proof/Machine/State.lean ====
section
/-! DEFINITION. The state of the machine. The block itself has none (`10_state.md` R20): the fields below are the
parameters it is built with, the inputs its host presents, the response of the block to the request before it, and
the outcomes handed back to the host so far. -/

namespace Sys2Proof.Machine

/-- Which input of a request is at fault (R32, R107). -/
inductive Slot where
  | mn
  | r0
  | r1
  | r2
  | imm
  | form
  deriving DecidableEq, Repr

/-- The outcome of the block on one request: a word, or an error with the slot at fault (R12, R107). -/
inductive BlockResult where
  | ok (word : Word)
  | err (kind : ErrorKind) (slot : Slot)
  deriving DecidableEq, Repr

/-- The outcome of the text contract on one line: 32 characters, the empty string for a blank line, or an error
(R12, R92). -/
inductive TextResult where
  | ok (text : Line)
  | err (e : EncodeError)
  deriving DecidableEq, Repr

/-- What the host can present: a source line (R92), a request at the block's boundary (R29), a mnemonic for the
classifier alone (R29), or values on the request ports (R31). -/
inductive Input where
  | line (l : Line)
  | request (q : HwReq)
  | classify (mn : Token)
  | wires (p : PortIn)
  deriving DecidableEq, Repr

/-- What the host gets back for each kind of input. A classification that finds no class is `UnknownMnemonic`
(R100). -/
inductive Output where
  | text (r : TextResult)
  | block (r : BlockResult)
  | classified (r : Option FormatClass)
  | wires (p : PortOut)
  deriving DecidableEq, Repr

/-- Reasons the machine stops. There is none: the three errors of R190 end one request, are handed back as its
outcome and leave the next request untouched (R196, R197), and no other exceptional outcome exists (R190). -/
inductive Fault where
  deriving DecidableEq, Repr

/-- Reasons an instruction has no meaning. -/
inductive Refusal where
  /-- Raised by `exec` for an instruction whose meaning is not written yet; safe. No arm raises it now. -/
  | notModelled (mnemonic : String)
  deriving DecidableEq, Repr

/-- The machine. `cfg` never changes (R23, R36). `inputs` is what the host will present, oldest first. `resp` is the
block's response to the request just evaluated, none where no request was presented (R32). `outputs` is what the
host has been given back, oldest first, one outcome per input. -/
structure State where
  cfg     : Config
  inputs  : List Input
  resp    : Option BlockResult
  outputs : List Output
  deriving DecidableEq, Repr

/-- Reset sets nothing, because nothing is stored (R36, R210). The parameters have the values of R6; the host has
presented nothing and has been given nothing. -/
def State.reset : State where
  cfg := Config.defaultInstance
  inputs := []
  resp := none
  outputs := []

end Sys2Proof.Machine
end

