-- ==== Sys2Proof/Machine/Operands.lean ====
section
/-! DEFINITION. How operands reach the packers: the register and immediate fields, the four class encoders, the choice
by class and form, and the whole function of the block (`41_classifier_regdecoder.md` R104 to R109). -/

namespace Sys2Proof.Machine

/-- Raising an error: it ends the evaluation of the request and is its outcome, with the slot at fault; no word is
produced (R10, R196). -/
def raise (kind : ErrorKind) (slot : Slot) : BlockResult := .err kind slot

/-- `REG!(name)`: go on with the index, or raise `UnknownRegister` for this slot (R104, R108). -/
def withReg (c : Config) (name : Token) (slot : Slot) (next : RegIndex → BlockResult) : BlockResult :=
  match c.tables.regOf name with
  | some r => next r
  | none => raise .unknownRegister slot

/-- `bin(imm, w)`: go on with the field, or raise `MalformedOperand` for the immediate (R82, R108). -/
def withImm (c : Config) (imm : Int) (w : Nat) (next : BitVec w → BlockResult) : BlockResult :=
  match bin c.policy imm w with
  | some i => next i
  | none => raise .malformedOperand .imm

/-- The R-encoder (R121). -/
def encodeR (c : Config) (f7 : BitVec 7) (f3 : BitVec 3) (opc : BitVec 7) (r0 r1 r2 : Token) : BlockResult :=
  withReg c r0 .r0 fun rd => withReg c r1 .r1 fun rs1 => withReg c r2 .r2 fun rs2 =>
    .ok (packR f7 rs2 rs1 f3 rd opc)

/-- The I-encoder; the second register is operand 1 or the base of the memory reference (R141). -/
def encodeI (c : Config) (f3 : BitVec 3) (opc : BitVec 7) (r0 r1 : Token) (imm : Int) : BlockResult :=
  withReg c r0 .r0 fun rd => withReg c r1 .r1 fun rs1 => withImm c imm 12 fun i12 =>
    .ok (packI i12 rs1 f3 rd opc)

/-- The S-encoder: operand 0 is the register to store, the base goes to `rs1` (R161). -/
def encodeS (c : Config) (f3 : BitVec 3) (opc : BitVec 7) (r0 base : Token) (offset : Int) : BlockResult :=
  withReg c r0 .r0 fun rs2 => withReg c base .r1 fun rs1 => withImm c offset 12 fun i12 =>
    .ok (packS i12 rs2 rs1 f3 opc)

/-- The SB-encoder: operand 0 goes to `rs1`, operand 1 to `rs2`, the byte offset is formatted as it is (R171). -/
def encodeSB (c : Config) (f3 : BitVec 3) (opc : BitVec 7) (r0 r1 : Token) (offset : Int) : BlockResult :=
  withReg c r0 .r0 fun rs1 => withReg c r1 .r1 fun rs2 => withImm c offset 13 fun i13 =>
    .ok (packSB i13 rs2 rs1 f3 opc)

/-- The choice by class and form: the five rows of R106, and `MalformedOperand` for every other pair. -/
def encodeRow (c : Config) (row : RowConstants) (ops : Operands) : BlockResult :=
  match row, ops with
  | .R f7 f3 opc, .rrr r0 r1 r2 => encodeR c f7 f3 opc r0 r1 r2
  | .I f3 opc, .rri r0 r1 imm => encodeI c f3 opc r0 r1 imm
  | .I f3 opc, .rm r0 base offset => encodeI c f3 opc r0 base offset
  | .S f3 opc, .rm r0 base offset => encodeS c f3 opc r0 base offset
  | .SB f3 opc, .rri r0 r1 offset => encodeSB c f3 opc r0 r1 offset
  | _, _ => raise .malformedOperand .form

/-- The outcome of a mnemonic on operands: classify, then choose, then pack (R107). -/
def encodeOperands (c : Config) (mn : Token) (ops : Operands) : BlockResult :=
  match c.tables.rowOf mn with
  | none => raise .unknownMnemonic .mn
  | some row => encodeRow c row ops

/-- The operands of a request: the fields its form uses; the others are ignored (R105). -/
def operandsOf (q : HwReq) : Operands :=
  match q.form with
  | .rrr => .rrr q.r0 q.r1 q.r2
  | .rri => .rri q.r0 q.r1 q.imm
  | .rm => .rm q.r0 q.r1 q.imm
  | .reserved => .reserved

/-- `encode_fields(req)`: the whole function of the hardware block (R107). -/
def encodeFields (c : Config) (q : HwReq) : BlockResult := encodeOperands c q.mn (operandsOf q)

/-- The request that carries a mnemonic and operands, unused fields empty as the front end leaves them (R92). -/
def requestOf (mn : Token) (ops : Operands) : HwReq :=
  match ops with
  | .rrr r0 r1 r2 => ⟨mn, .rrr, r0, r1, r2, 0⟩
  | .rri r0 r1 imm => ⟨mn, .rri, r0, r1, [], imm⟩
  | .rm r0 base offset => ⟨mn, .rm, r0, base, [], offset⟩
  | .reserved => ⟨mn, .reserved, [], [], [], 0⟩

/-- The instruction a request asks for, where its mnemonic is a row of the opcode table. -/
def instrOf (q : HwReq) : Option Instr := (Mnemonic.ofKey q.mn).map (fun m => m.instr (operandsOf q))

end Sys2Proof.Machine
end

