-- ==== Sys2Proof/Machine/Ops.lean ====
section
/-! DEFINITION. The operations over the state that every meaning is made of. There is no memory and no register file to
read or write (`10_state.md` R28, `20_memory.md` R40): an instruction's whole effect is the response. -/

namespace Sys2Proof.Machine

/-- The outcome of one step of this machine. -/
abbrev StepResult := Host.Outcome State Fault Refusal

/-- The block presents its response to the request: a word (R107) or an error. DELIVERING AN ERROR is this and nothing
more: it is returned to the caller in place of the word; no register, mode or address changes (R196), and there is
nothing to return from (R197). -/
def State.respond (s : State) (r : BlockResult) : State :=
  { s with resp := some r }

/-- No request is presented, `req_valid = 0` (R31, R86). -/
def State.idle (s : State) : State :=
  { s with resp := none }

/-- The host is handed an outcome (R196, R199). -/
def State.emit (s : State) (o : Output) : State :=
  { s with outputs := s.outputs ++ [o] }

/-- The host moves to its next input. -/
def State.advance (s : State) (rest : List Input) : State :=
  { s with inputs := rest }

/-- The block evaluates a request for a mnemonic with operands and presents its outcome (R107, R109). -/
def perform (mn : Token) (ops : Operands) (s : State) : StepResult :=
  .next (s.respond (encodeOperands s.cfg mn ops))

/-- Hand the host the outcome made of the block's response, after an instruction has run. -/
def andEmit (r : StepResult) (out : BlockResult → Output) : StepResult :=
  match r with
  | .next t => match t.resp with
    | some b => .next (t.emit (out b))
    | none => .next t
  | .fault f => .fault f
  | .refused f => .refused f

end Sys2Proof.Machine
end

