-- ==== Sys2Proof/Machine/Branch.lean ====
section
/-! DEFINITION. The branch mnemonics of class SB (`45_sb_format.md`): encoding a branch transfers no control (R28). Each meaning is an instance of R171 with the constants its mnemonic
selects from the tables (R107). -/

namespace Sys2Proof.Machine

/-- `beq rs1, rs2, offset` (R172); in the default instance class SB, funct3 `000`, opcode `1100011`. -/
def execBeq (ops : Operands) (s : State) : StepResult := perform (Mnemonic.key .beq) ops s

/-- `bne rs1, rs2, offset` (R173); in the default instance class SB, funct3 `001`, opcode `1100011`. -/
def execBne (ops : Operands) (s : State) : StepResult := perform (Mnemonic.key .bne) ops s

/-- `blt rs1, rs2, offset` (R174); in the default instance class SB, funct3 `100`, opcode `1100011`. -/
def execBlt (ops : Operands) (s : State) : StepResult := perform (Mnemonic.key .blt) ops s

/-- `bge rs1, rs2, offset` (R175); in the default instance class SB, funct3 `101`, opcode `1100011`. -/
def execBge (ops : Operands) (s : State) : StepResult := perform (Mnemonic.key .bge) ops s

/-- `bltu rs1, rs2, offset` (R176); in the default instance class SB, funct3 `110`, opcode `1100011`. -/
def execBltu (ops : Operands) (s : State) : StepResult := perform (Mnemonic.key .bltu) ops s

/-- `bgeu rs1, rs2, offset` (R177); in the default instance class SB, funct3 `111`, opcode `1100011`. -/
def execBgeu (ops : Operands) (s : State) : StepResult := perform (Mnemonic.key .bgeu) ops s

end Sys2Proof.Machine
end

