-- ==== Sys2Proof/Machine/ImmediateArithmetic.lean ====
section
/-! DEFINITION. The immediate arithmetic mnemonics of class I (`43_i_format.md`). Each meaning is an instance of R141 with the constants its mnemonic
selects from the tables (R107). -/

namespace Sys2Proof.Machine

/-- `addi rd, rs1, imm`, also `rd, imm(rs1)` (R142); in the default instance class I, funct3 `000`, opcode `0010011`. -/
def execAddi (ops : Operands) (s : State) : StepResult := perform (Mnemonic.key .addi) ops s

/-- `slti rd, rs1, imm`, also `rd, imm(rs1)` (R143); in the default instance class I, funct3 `010`, opcode `0010011`. -/
def execSlti (ops : Operands) (s : State) : StepResult := perform (Mnemonic.key .slti) ops s

/-- `sltiu rd, rs1, imm`, also `rd, imm(rs1)` (R144); in the default instance class I, funct3 `011`, opcode `0010011`. -/
def execSltiu (ops : Operands) (s : State) : StepResult := perform (Mnemonic.key .sltiu) ops s

/-- `xori rd, rs1, imm`, also `rd, imm(rs1)` (R145); in the default instance class I, funct3 `100`, opcode `0010011`. -/
def execXori (ops : Operands) (s : State) : StepResult := perform (Mnemonic.key .xori) ops s

/-- `ori rd, rs1, imm`, also `rd, imm(rs1)` (R146); in the default instance class I, funct3 `110`, opcode `0010011`. -/
def execOri (ops : Operands) (s : State) : StepResult := perform (Mnemonic.key .ori) ops s

/-- `andi rd, rs1, imm`, also `rd, imm(rs1)` (R147); in the default instance class I, funct3 `111`, opcode `0010011`. -/
def execAndi (ops : Operands) (s : State) : StepResult := perform (Mnemonic.key .andi) ops s

end Sys2Proof.Machine
end

