-- ==== Sys2Proof/Machine/Load.lean ====
section
/-! DEFINITION. The load mnemonics of class I (`43_i_format.md`): encoding a load reads no memory (R40). Each meaning is an instance of R141 with the constants its mnemonic
selects from the tables (R107). -/

namespace Sys2Proof.Machine

/-- `lb rd, offset(rs1)`, also `rd, rs1, offset` (R148); in the default instance class I, funct3 `000`, opcode `0000011`. -/
def execLb (ops : Operands) (s : State) : StepResult := perform (Mnemonic.key .lb) ops s

/-- `lh rd, offset(rs1)`, also `rd, rs1, offset` (R149); in the default instance class I, funct3 `001`, opcode `0000011`. -/
def execLh (ops : Operands) (s : State) : StepResult := perform (Mnemonic.key .lh) ops s

/-- `lw rd, offset(rs1)`, also `rd, rs1, offset` (R150); in the default instance class I, funct3 `010`, opcode `0000011`. -/
def execLw (ops : Operands) (s : State) : StepResult := perform (Mnemonic.key .lw) ops s

/-- `lbu rd, offset(rs1)`, also `rd, rs1, offset` (R151); in the default instance class I, funct3 `100`, opcode `0000011`. -/
def execLbu (ops : Operands) (s : State) : StepResult := perform (Mnemonic.key .lbu) ops s

/-- `lhu rd, offset(rs1)`, also `rd, rs1, offset` (R152); in the default instance class I, funct3 `101`, opcode `0000011`. -/
def execLhu (ops : Operands) (s : State) : StepResult := perform (Mnemonic.key .lhu) ops s

end Sys2Proof.Machine
end

