-- ==== Sys2Proof/Machine/RegisterRegister.lean ====
section
/-! DEFINITION. The register-register mnemonics of class R (`42_r_format.md`). Each meaning is an instance of R121 with the constants its mnemonic
selects from the tables (R107). -/

namespace Sys2Proof.Machine

/-- `add rd, rs1, rs2` (R122); in the default instance class R, funct3 `000`, opcode `0110011`, funct7 `0000000`. -/
def execAdd (ops : Operands) (s : State) : StepResult := perform (Mnemonic.key .add) ops s

/-- `sub rd, rs1, rs2` (R123); in the default instance class R, funct3 `000`, opcode `0110011`, funct7 `0100000`. -/
def execSub (ops : Operands) (s : State) : StepResult := perform (Mnemonic.key .sub) ops s

/-- `sll rd, rs1, rs2` (R124); in the default instance class R, funct3 `001`, opcode `0110011`, funct7 `0000000`. -/
def execSll (ops : Operands) (s : State) : StepResult := perform (Mnemonic.key .sll) ops s

/-- `slt rd, rs1, rs2` (R125); in the default instance class R, funct3 `010`, opcode `0110011`, funct7 `0000000`. -/
def execSlt (ops : Operands) (s : State) : StepResult := perform (Mnemonic.key .slt) ops s

/-- `sltu rd, rs1, rs2` (R126); in the default instance class R, funct3 `011`, opcode `0110011`, funct7 `0000000`. -/
def execSltu (ops : Operands) (s : State) : StepResult := perform (Mnemonic.key .sltu) ops s

/-- `xor rd, rs1, rs2` (R127); in the default instance class R, funct3 `100`, opcode `0110011`, funct7 `0000000`. -/
def execXor (ops : Operands) (s : State) : StepResult := perform (Mnemonic.key .xor) ops s

/-- `srl rd, rs1, rs2` (R128); in the default instance class R, funct3 `101`, opcode `0110011`, funct7 `0000000`. -/
def execSrl (ops : Operands) (s : State) : StepResult := perform (Mnemonic.key .srl) ops s

/-- `sra rd, rs1, rs2` (R129); in the default instance class R, funct3 `101`, opcode `0110011`, funct7 `0100000`. -/
def execSra (ops : Operands) (s : State) : StepResult := perform (Mnemonic.key .sra) ops s

/-- `or rd, rs1, rs2` (R130); in the default instance class R, funct3 `110`, opcode `0110011`, funct7 `0000000`. -/
def execOr (ops : Operands) (s : State) : StepResult := perform (Mnemonic.key .or) ops s

/-- `and rd, rs1, rs2` (R131); in the default instance class R, funct3 `111`, opcode `0110011`, funct7 `0000000`. -/
def execAnd (ops : Operands) (s : State) : StepResult := perform (Mnemonic.key .and) ops s

end Sys2Proof.Machine
end

