-- ==== Sys2Proof/Machine/Store.lean ====
section
/-! DEFINITION. The store mnemonics of class S (`44_s_format.md`): encoding a store writes no memory (R40). Each meaning is an instance of R161 with the constants its mnemonic
selects from the tables (R107). -/

namespace Sys2Proof.Machine

/-- `sb rs2, offset(rs1)` (R162); in the default instance class S, funct3 `000`, opcode `0100011`. -/
def execSb (ops : Operands) (s : State) : StepResult := perform (Mnemonic.key .sb) ops s

/-- `sh rs2, offset(rs1)` (R163); in the default instance class S, funct3 `001`, opcode `0100011`. -/
def execSh (ops : Operands) (s : State) : StepResult := perform (Mnemonic.key .sh) ops s

/-- `sw rs2, offset(rs1)` (R164); in the default instance class S, funct3 `010`, opcode `0100011`. -/
def execSw (ops : Operands) (s : State) : StepResult := perform (Mnemonic.key .sw) ops s

end Sys2Proof.Machine
end

