-- ==== Sys2Proof/Machine/FrontEnd.lean ====
section
/-! DEFINITION. The front end: the line normaliser, the token parsers, the operand lists by class, and the text contract
`encode_instruction` (`40_front_end.md` R84 to R93). -/

namespace Sys2Proof.Machine

/-! ## The line normaliser -/

/-- The six whitespace characters: space, tab, line feed, vertical tab, form feed, carriage return (R84). -/
def isSpace (b : Byte) : Bool := b.toNat == 0x20 || (0x09 ≤ b.toNat && b.toNat ≤ 0x0D)

/-- The comma. -/
def isComma (b : Byte) : Bool := b == ascii ','

/-- Remove leading and trailing whitespace (R85). -/
def strip (l : Line) : Line := ((l.dropWhile isSpace).reverse.dropWhile isSpace).reverse

/-- Delete every comma; it is not replaced by a space (R85). -/
def deleteCommas (l : Line) : Line := l.filter (fun b => !isComma b)

/-- Whether a text starts inside a token. -/
def startsInToken (l : Line) : Bool := match l with
  | [] => false
  | b :: _ => !isSpace b

/-- Put a character in front of the first token of a list. -/
def extendFirst (b : Byte) (ts : List Token) : List Token := match ts with
  | [] => [[b]]
  | t :: rest => (b :: t) :: rest

/-- The maximal runs of non-whitespace characters, in order (R85). -/
def splitWhitespace : Line → List Token
  | [] => []
  | b :: rest =>
    if isSpace b then splitWhitespace rest
    else if startsInToken rest then extendFirst b (splitWhitespace rest)
    else [b] :: splitWhitespace rest

/-- `normalise(line)` (R85). -/
def normalise (l : Line) : List Token := splitWhitespace (deleteCommas (strip l))

/-! ## Token parsers -/

/-- An ASCII digit (R88). -/
def isDigit (b : Byte) : Bool := 0x30 ≤ b.toNat && b.toNat ≤ 0x39

/-- The decimal value of a run of digits, leading zeros allowed (R88). -/
def decimalValue (ds : Token) : Nat := ds.foldl (fun n d => 10 * n + (d.toNat - 0x30)) 0

/-- `DIGIT+` (R88). -/
def parseDigits (t : Token) : Option Nat := if !t.isEmpty && t.all isDigit then some (decimalValue t) else none

/-- `parse_int(tok)`: `['-'] DIGIT+`, the whole token; nothing where it raises `MalformedOperand` (R88). -/
def parseInt (t : Token) : Option Int :=
  match t with
  | [] => none
  | b :: rest =>
    if b == ascii '-' then (parseDigits rest).map (fun n : Nat => -(n : Int))
    else (parseDigits t).map (fun n : Nat => (n : Int))

/-- NAME: one or more letters, digits and underscores (R89). -/
def isName (t : Token) : Bool := !t.isEmpty && t.all isNameChar

/-- The character `(`. -/
def isOpen (b : Byte) : Bool := b == ascii '('

/-- `parse_mem(tok)`: `INT '(' NAME ')'`, the whole token, as offset and base name; nothing where it raises
`MalformedOperand` (R89). -/
def parseMem (t : Token) : Option (Int × Token) :=
  match t.dropWhile (fun b => !isOpen b) with
  | [] => none
  | _ :: body =>
    if body.getLast? == some (ascii ')') && isName body.dropLast then
      (parseInt (t.takeWhile (fun b => !isOpen b))).map (fun n => (n, body.dropLast))
    else none

/-! ## Operand lists by class -/

/-- What the front end makes of a line: nothing to encode, an error of its own, or a request, which it presents with
the operand tokens kept for diagnostics. -/
inductive Parsed where
  | blank
  | fail (kind : ErrorKind) (token : Token)
  | request (q : HwReq) (ops : List Token)
  deriving DecidableEq, Repr

/-- Class R: three register operands (R90). -/
def parseR (mn : Token) (ops : List Token) : Parsed :=
  match ops with
  | [a, b, d] => .request ⟨mn, .rrr, a, b, d, 0⟩ ops
  | _ => .fail .malformedOperand []

/-- A register and then a memory reference, exactly two operands: class S, and the memory form of class I (R90). -/
def parseMemForm (mn : Token) (ops : List Token) : Parsed :=
  match ops with
  | [a, m] => match parseMem m with
    | some (offset, base) => .request ⟨mn, .rm, a, base, [], offset⟩ ops
    | none => .fail .malformedOperand m
  | _ => .fail .malformedOperand []

/-- Two registers and then an integer, exactly three operands: class SB, and the register form of class I (R90). -/
def parseIntForm (mn : Token) (ops : List Token) : Parsed :=
  match ops with
  | [a, b, n] => match parseInt n with
    | some imm => .request ⟨mn, .rri, a, b, [], imm⟩ ops
    | none => .fail .malformedOperand n
  | _ => .fail .malformedOperand []

/-- Whether the second operand holds a `(`, which chooses the memory form of class I (R91). -/
def hasMemOperand (ops : List Token) : Bool :=
  match ops with
  | _ :: second :: _ => second.any isOpen
  | _ => false

/-- The operands of a line by the class of its mnemonic (R90, R91, R92). -/
def parseOperands (cls : FormatClass) (mn : Token) (ops : List Token) : Parsed :=
  match cls with
  | .R => parseR mn ops
  | .I => if hasMemOperand ops then parseMemForm mn ops else parseIntForm mn ops
  | .S => parseMemForm mn ops
  | .SB => parseIntForm mn ops

/-- The front end on a line: normalise, classify, and only then parse the operands (R92, R101). -/
def frontEnd (c : Config) (l : Line) : Parsed :=
  match normalise l with
  | [] => .blank
  | mn :: ops => match c.tables.classOf mn with
    | none => .fail .unknownMnemonic mn
    | some cls => parseOperands cls mn ops

/-! ## The text contract -/

/-- The token at fault, from the slot the block reports (R194). -/
def slotToken (q : HwReq) (ops : List Token) (slot : Slot) : Token :=
  match slot with
  | .mn => q.mn
  | .r0 => q.r0
  | .r1 => q.r1
  | .r2 => q.r2
  | .imm => match q.form with
    | .rm => ops.getD 1 []
    | .rri => ops.getD 2 []
    | .rrr => []
    | .reserved => []
  | .form => []

/-- The text outcome of a line whose request the block has answered: 32 characters or an error with its token and the
original line (R92, R93, R194). -/
def textResult (l : Line) (q : HwReq) (ops : List Token) (r : BlockResult) : TextResult :=
  match r with
  | .ok w => .ok (bitString w)
  | .err kind slot => .err ⟨kind, slotToken q ops slot, l⟩

/-- `encode_instruction(line)` (R92). -/
def encodeInstruction (c : Config) (l : Line) : TextResult :=
  match frontEnd c l with
  | .blank => .ok []
  | .fail kind token => .err ⟨kind, token, l⟩
  | .request q ops => textResult l q ops (encodeFields c q)

end Sys2Proof.Machine
end

