-- ==== Sys2Proof/Machine/Flags.lean ====
section
/-! DEFINITION. The block has no flags (`10_state.md` R28); its status outputs are the nearest thing. This file holds
their codes: the class, the form, the status and the slot at fault (R31, R32; `60_exceptions.md` R194). -/

namespace Sys2Proof.Machine

/-- The `cls` port (R32). -/
def classCode : FormatClass → BitVec 2
  | .R => 0
  | .I => 1
  | .S => 2
  | .SB => 3

/-- The `form` port (R31). -/
def formCode : Form → BitVec 2
  | .rrr => 0
  | .rri => 1
  | .rm => 2
  | .reserved => 3

/-- The form a value of the `form` port stands for (R31). -/
def formOfCode (b : BitVec 2) : Form :=
  if b = 0 then .rrr else if b = 1 then .rri else if b = 2 then .rm else .reserved

/-- The code of an error on the `status` port; 0 is no error (R194). -/
def errorCode : ErrorKind → BitVec 2
  | .unknownMnemonic => 1
  | .unknownRegister => 2
  | .malformedOperand => 3

/-- The `err_slot` port (R32). -/
def slotCode : Slot → BitVec 3
  | .mn => 0
  | .r0 => 1
  | .r1 => 2
  | .r2 => 3
  | .imm => 4
  | .form => 5

/-- The `status` port for an outcome of the block (R194). -/
def statusCode : BlockResult → BitVec 2
  | .ok _ => 0
  | .err kind _ => errorCode kind

end Sys2Proof.Machine
end

