-- ==== Sys2Proof/Machine/Ports.lean ====
section
/-! DEFINITION. The port level of the block (`10_state.md` R30 to R35): how keys and the immediate are carried on wires,
and the outputs the block drives. It computes the function of the model level (R13). -/

namespace Sys2Proof.Machine

/-- Eight characters as a 64-bit key, the first in bits 63:56. -/
def joinBytes (t : Token) : BitVec 64 := t.foldl (fun k b => (k <<< 8) ||| b.setWidth 64) 0

/-- A key port's value for a token: its characters from bit 63 down and zeros after them; all ones for a token that
is empty, longer than eight characters or holds a zero byte (R33). -/
def packKey (t : Token) : BitVec 64 :=
  if !t.isEmpty && t.length ≤ keyBytes && t.all (fun b => b != 0) then
    joinBytes (t ++ List.replicate (keyBytes - t.length) 0)
  else BitVec.allOnes 64

/-- The eight bytes of a key port, bits 63:56 first. -/
def splitBytes (k : BitVec 64) : Token := (List.range keyBytes).map (fun i => k.extractLsb' (56 - 8 * i) 8)

/-- The token a key port carries: its bytes without the zeros after the last character. A pattern no key is carried
as gives a token that is no key (R33). -/
def unpackKey (k : BitVec 64) : Token := ((splitBytes k).reverse.dropWhile (fun b => b == 0)).reverse

/-- The request on the ports (R31). -/
def portRequest (p : PortIn) : HwReq :=
  ⟨unpackKey p.mnKey, formOfCode p.form, unpackKey p.r0Key, unpackKey p.r1Key, unpackKey p.r2Key, p.immIn.toInt⟩

/-- Whether a form has an integer operand (R105). -/
def usesImm : Form → Bool
  | .rrr => false
  | .rri => true
  | .rm => true
  | .reserved => false

/-- Whether the front end can put an integer on the 32-bit port: in range, or any value under `truncate` (R34). -/
def immFitsPort (p : OverflowPolicy) (imm : Int) : Bool := p == .truncate || inDomain imm 31

/-- A request put on the ports; nothing where the front end raises `MalformedOperand` for the integer itself and
presents no request (R33, R34). -/
def toPorts (c : Config) (q : HwReq) : Option PortIn :=
  if usesImm q.form && !immFitsPort c.policy q.imm then none
  else some ⟨true, packKey q.mn, formCode q.form, packKey q.r0, packKey q.r1, packKey q.r2, modBits q.imm 32⟩

/-- The response wires for the inputs present: `mn_hit` and `cls` from `mn_key` alone; `status`, `err_slot` and `word`
from the block's outcome where there is one. A wire without a meaning carries a free value (R32, R211). -/
def drive (c : Config) (p : PortIn) (r : Option BlockResult) : PortOut where
  respValid := p.reqValid
  mnHit := (c.tables.classOf (unpackKey p.mnKey)).isSome
  cls := match c.tables.classOf (unpackKey p.mnKey) with
    | some cls => classCode cls
    | none => Config.clsOnMiss c p.mnKey
  status := match r with
    | some b => statusCode b
    | none => (Config.unspecifiedOut c p).status
  errSlot := match r with
    | some (.err _ slot) => slotCode slot
    | _ => (Config.unspecifiedOut c p).errSlot
  word := match r with
    | some (.ok w) => w
    | _ => (Config.unspecifiedOut c p).word

/-- `rv_encoder`: every output as a function of the inputs present (R30, R35). -/
def rvEncoder (c : Config) (p : PortIn) : PortOut :=
  drive c p (if p.reqValid then some (encodeFields c (portRequest p)) else none)

end Sys2Proof.Machine
end

