-- ==== Sys2Proof/Machine/Evaluate.lean ====
section
/-! DEFINITION. The evaluation of one input: what the host presents is turned into a request, the instruction the
request asks for is run, and the outcome is handed back (`00_scope.md` R12, `70_reset_and_hazards.md` R213, R216). -/

namespace Sys2Proof.Machine

/-- Run the instruction a request asks for. A mnemonic with no row in the opcode table has no instruction: the block
answers it from its tables all the same, with `UnknownMnemonic` in the default instance (R107, R191). -/
def runRequest (q : HwReq) (s : State) : StepResult :=
  match instrOf q with
  | some i => exec i s
  | none => perform q.mn (operandsOf q) s

/-- A source line (R92). A blank line and an error of the front end present no request (R86, R195). -/
def evaluateLine (l : Line) (s : State) : StepResult :=
  match frontEnd s.cfg l with
  | .blank => .next (s.idle.emit (.text (.ok [])))
  | .fail kind token => .next (s.idle.emit (.text (.err ⟨kind, token, l⟩)))
  | .request q ops => andEmit (runRequest q s) (fun r => .text (textResult l q ops r))

/-- A request at the block's boundary (R29). -/
def evaluateRequest (q : HwReq) (s : State) : StepResult := andEmit (runRequest q s) .block

/-- A mnemonic for the classifier alone (R29, R100). -/
def evaluateClassify (mn : Token) (s : State) : StepResult :=
  .next (s.idle.emit (.classified (s.cfg.tables.classOf mn)))

/-- Values on the request ports; with `req_valid = 0` there is no request (R31, R32, R211). -/
def evaluateWires (p : PortIn) (s : State) : StepResult :=
  if p.reqValid then andEmit (runRequest (portRequest p) s) (fun r => .wires (drive s.cfg p (some r)))
  else .next (s.idle.emit (.wires (drive s.cfg p none)))

/-- The evaluation of one input, of any kind. -/
def evaluate (x : Input) (s : State) : StepResult :=
  match x with
  | .line l => evaluateLine l s
  | .request q => evaluateRequest q s
  | .classify mn => evaluateClassify mn s
  | .wires p => evaluateWires p s

end Sys2Proof.Machine
end

