-- ==== Sys2Proof/Machine/Step.lean ====
section
/-! DEFINITION. One step: the evaluation of the next input, atomic and without time (`70_reset_and_hazards.md` R216). -/

namespace Sys2Proof.Machine

/-- The host's next input is evaluated. Where the host presents nothing, `req_valid = 0`, and nothing but that
happens (R211). -/
def step (s : State) : Host.Outcome State Fault Refusal :=
  match s.inputs with
  | [] => .next s.idle
  | x :: rest => evaluate x (s.advance rest)

/-- The machine with the request for a word of the opcode table as the host's next input. A word that is no row's has
no request, and nothing is put. Log entry 3. -/
def State.withFetchWord (s : State) (nbits w : Nat) : State :=
  match decodeTableWord nbits w with
  | some i => s.advance (.request (requestOf i.mnemonic.key i.operands) :: s.inputs)
  | none => s

end Sys2Proof.Machine
end

