-- ==== Sys2Proof/Machine/Shell.lean ====
section
/-! DEFINITION. What the file-processing shell owes the encoder and its users (`60_exceptions.md` R199 to R201): one
output line per input line, a diagnostic line in place of a word. -/

namespace Sys2Proof.Machine

/-- The newline character. -/
def newline : Byte := 0x0A

/-- A string of exactly 32 characters `0` and `1` (R200). -/
def looksLikeWord (l : Line) : Bool := l.length == 32 && l.all (fun b => b == ascii '0' || b == ascii '1')

/-- Whether a token occurs in a text. -/
def occursIn (t : Token) (l : Line) : Bool := l.tails.any (fun rest => t.isPrefixOf rest)

/-- The constraints of R200 on a diagnostic line: one line, the token in it for the two "unknown" errors, no word and
not empty. -/
def diagAllowed (e : EncodeError) (l : Line) : Bool :=
  !l.contains newline && !l.isEmpty && !looksLikeWord l && (e.kind == .malformedOperand || occursIn e.tok l)

/-- A line that meets the constraints, for when the open parameter does not. -/
def diagMarker (e : EncodeError) : Line :=
  tok ['e', 'r', 'r', 'o', 'r', ' '] ++ (if e.kind == .malformedOperand then [] else e.tok)

/-- The diagnostic line: the open parameter `DIAG`, held to the constraints of R200. -/
def diag (e : EncodeError) : Line := if diagAllowed e (Config.diagText e) then Config.diagText e else diagMarker e

/-- The output line for an outcome (R200, R201). -/
def outputLine : TextResult → Line
  | .ok text => text
  | .err e => diag e

/-- The output file for a list of outcomes: each line followed by one newline (R201). -/
def outputFile (rs : List TextResult) : List Byte := rs.flatMap (fun r => outputLine r ++ [newline])

/-- The output file for the lines of an input file (R199, R201). -/
def shellRun (c : Config) (lines : List Line) : List Byte := outputFile (lines.map (encodeInstruction c))

/-- The text outcomes the host has been given. -/
def State.textResults (s : State) : List TextResult :=
  s.outputs.filterMap (fun o => match o with
    | .text r => some r
    | .block _ => none
    | .classified _ => none
    | .wires _ => none)

end Sys2Proof.Machine
end

