-- ==== Sys2Proof/Safety.lean ====
section
/-! DEFINITION. The terms claims are made in: the outcome each input is owed (`20_memory.md` R46), and what every state
of a run keeps, namely that a block built with the default tables hands back only words of the
opcode table, as words and as text (`30_encoding.md` R67, R69; `40_front_end.md` R93). -/

namespace Sys2Proof.Machine

/-- The outcome of one input as a function of the configuration and the input alone (R46, R94). -/
def outcome (c : Config) : Input → Output
  | .line l => .text (encodeInstruction c l)
  | .request q => .block (encodeFields c q)
  | .classify mn => .classified (c.tables.classOf mn)
  | .wires p => .wires (rvEncoder c p)

/-- The block's response while an input is evaluated: none where no request reaches it (R86, R211). -/
def responseTo (c : Config) : Input → Option BlockResult
  | .line l => match frontEnd c l with
    | .blank => none
    | .fail _ _ => none
    | .request q _ => some (encodeFields c q)
  | .request q => some (encodeFields c q)
  | .classify _ => none
  | .wires p => if p.reqValid then some (encodeFields c (portRequest p)) else none

/-- The word has the constant bits of a row of the opcode table (R67). -/
def inOpcodeTable (w : Word) : Prop := ∃ r ∈ opcodeRows, r.fits w = true

/-- An outcome of the block is a word of the table or an error. -/
def BlockResult.Sound : BlockResult → Prop
  | .ok w => inOpcodeTable w
  | .err _ _ => True

/-- A text outcome is the empty string, the 32 characters of a word of the table, or an error. -/
def TextResult.Sound : TextResult → Prop
  | .ok text => text = [] ∨ ∃ w, inOpcodeTable w ∧ text = bitString w
  | .err _ => True

/-- The response wires carry a word of the table where they say that a word is there (R32). -/
def wiresSound (p : PortOut) : Prop := p.respValid = true → p.status = 0 → inOpcodeTable p.word

/-- An outcome handed to the host is sound. -/
def Output.Sound : Output → Prop
  | .text r => r.Sound
  | .block r => r.Sound
  | .classified _ => True
  | .wires p => wiresSound p

/-- The invariant of a block built with the default tables. -/
structure Inv (s : State) : Prop where
  tables  : s.cfg.tables = Tables.defaultInstance
  resp    : ∀ r, s.resp = some r → r.Sound
  outputs : ∀ o ∈ s.outputs, o.Sound

end Sys2Proof.Machine
end

