-- ==== Sys2Proof/Certificates/Slice0/Obligations.lean ====
section
/-! DEFINITION. The statements for the provers, in the order of `OBLIGATIONS.json`. Each names the rules of `spec/` it
rests on. `D<n>` after a rule is the entry of `92_eei_decisions.md` by which the spec itself chose it, `G<n>` the entry of
`93_implementation_defined.md` by which it supplied it; log entries are the model's. -/

namespace Sys2Proof.Machine

/-- The register table answers a name with an index (R104). -/
def Knows (c : Config) (name : Token) (r : RegIndex) : Prop := c.tables.regOf name = some r

/-- The register table does not hold a name (R104). -/
def Unknown (c : Config) (name : Token) : Prop := c.tables.regOf name = none

/-- The values a field of `w` bits is made for: every one under `truncate`, `-2^w <= v < 2^w` under `error` (R60). -/
def Accepts (c : Config) (w : Nat) (v : Int) : Prop := c.policy = .truncate ∨ (-(2 ^ w : Int) ≤ v ∧ v < 2 ^ w)

/-- The machine answers a next state that differs in the response alone. -/
def Answers (i : Instr) (s : State) (r : BlockResult) : Prop := exec i s = .next { s with resp := some r }

/-- A run of characters with no whitespace and no comma: a token as it stands in a line (R85). -/
def PlainToken (t : Token) : Prop := t ≠ [] ∧ ∀ b ∈ t, isSpace b = false ∧ isComma b = false

/-- A source line in the usual spelling: the mnemonic, a space, the operands with a comma and a space between (R71). -/
def sourceLine (mn : Token) (ops : List Token) : Line := mn ++ tok [' '] ++ (tok [',', ' ']).intercalate ops

/-- The token of a memory reference with these parts (R89). -/
def memToken (offset base : Token) : Token := offset ++ tok ['('] ++ base ++ tok [')']

/-- An instruction of the opcode table without its operands, and its funct3. -/
abbrev Row3 := (Operands → Instr) × BitVec 3

/-- The same with a second constant in front: the funct7 of class R, the opcode of class I. -/
abbrev Row7 := (Operands → Instr) × BitVec 7 × BitVec 3

/-- The constructors of class R with funct7 and funct3 (R122 to R131). -/
def instrsR : List Row7 :=
  [(.add, 0b0000000, 0b000), (.sub, 0b0100000, 0b000), (.sll, 0b0000000, 0b001), (.slt, 0b0000000, 0b010),
   (.sltu, 0b0000000, 0b011), (.xor, 0b0000000, 0b100), (.srl, 0b0000000, 0b101), (.sra, 0b0100000, 0b101),
   (.or, 0b0000000, 0b110), (.and, 0b0000000, 0b111)]

/-- The constructors of class I with opcode and funct3 (R142 to R152). -/
def instrsI : List Row7 :=
  [(.addi, 0b0010011, 0b000), (.slti, 0b0010011, 0b010), (.sltiu, 0b0010011, 0b011), (.xori, 0b0010011, 0b100),
   (.ori, 0b0010011, 0b110), (.andi, 0b0010011, 0b111), (.lb, 0b0000011, 0b000), (.lh, 0b0000011, 0b001),
   (.lw, 0b0000011, 0b010), (.lbu, 0b0000011, 0b100), (.lhu, 0b0000011, 0b101)]

/-- The constructors of class S with funct3 (R162 to R164). -/
def instrsS : List Row3 := [(.sb, 0b000), (.sh, 0b001), (.sw, 0b010)]

/-- The constructors of class SB with funct3 (R172 to R177). -/
def instrsSB : List Row3 :=
  [(.beq, 0b000), (.bne, 0b001), (.blt, 0b100), (.bge, 0b101), (.bltu, 0b110), (.bgeu, 0b111)]

end Sys2Proof.Machine

open Sys2Proof Sys2Proof.Machine

/-! ## The instructions -/

/-- R122, R142 and R150: `add`, `addi` and `lw`, whose rows are the source's own, in every table instance: the word, and
its constant bits. -/
def Obligations.SourceGivenInstructions : Prop :=
  ∀ s : State,
    (∀ r0 r1 r2 rd rs1 rs2, Knows s.cfg r0 rd → Knows s.cfg r1 rs1 → Knows s.cfg r2 rs2 →
      ∃ w : Word, w = 0b0000000#7 ++ rs2 ++ rs1 ++ 0b000#3 ++ rd ++ 0b0110011#7 ∧ w &&& 0xFE00707F = 0x00000033 ∧
        Answers (.add (.rrr r0 r1 r2)) s (.ok w)) ∧
    (∀ r0 r1 imm rd rs1, Knows s.cfg r0 rd → Knows s.cfg r1 rs1 → Accepts s.cfg 12 imm → ∀ ops,
      ops = .rri r0 r1 imm ∨ ops = .rm r0 r1 imm →
      (∃ w : Word, w = BitVec.ofInt 12 imm ++ rs1 ++ 0b000#3 ++ rd ++ 0b0010011#7 ∧ w &&& 0x0000707F = 0x00000013 ∧
        Answers (.addi ops) s (.ok w)) ∧
      ∃ w : Word, w = BitVec.ofInt 12 imm ++ rs1 ++ 0b010#3 ++ rd ++ 0b0000011#7 ∧ w &&& 0x0000707F = 0x00002003 ∧
        Answers (.lw ops) s (.ok w))

/-- R122 to R131 (G3 but for `add`) with the errors of R121 (D8, D24): for every register name in every position, known
or not, and every form. -/
def Obligations.RegisterRegisterInstructions : Prop :=
  ∀ s : State, s.cfg.tables = Tables.defaultInstance → ∀ row ∈ instrsR,
    (∀ r0 r1 r2 rd rs1 rs2, Knows s.cfg r0 rd → Knows s.cfg r1 rs1 → Knows s.cfg r2 rs2 →
      Answers (row.1 (.rrr r0 r1 r2)) s (.ok (row.2.1 ++ rs2 ++ rs1 ++ row.2.2 ++ rd ++ 0b0110011#7))) ∧
    (∀ r0 r1 r2, Unknown s.cfg r0 → Answers (row.1 (.rrr r0 r1 r2)) s (.err .unknownRegister .r0)) ∧
    (∀ r0 r1 r2 rd, Knows s.cfg r0 rd → Unknown s.cfg r1 →
      Answers (row.1 (.rrr r0 r1 r2)) s (.err .unknownRegister .r1)) ∧
    (∀ r0 r1 r2 rd rs1, Knows s.cfg r0 rd → Knows s.cfg r1 rs1 → Unknown s.cfg r2 →
      Answers (row.1 (.rrr r0 r1 r2)) s (.err .unknownRegister .r2)) ∧
    (∀ ops, (∀ r0 r1 r2, ops ≠ .rrr r0 r1 r2) → Answers (row.1 ops) s (.err .malformedOperand .form))

/-- R142 to R152 (G3 but for `addi` and `lw`) with the errors of R141 (D6 to D8, D24): both operand forms, every name,
every immediate, both policies. -/
def Obligations.ImmediateAndLoadInstructions : Prop :=
  ∀ s : State, s.cfg.tables = Tables.defaultInstance → ∀ row ∈ instrsI,
    (∀ r0 r1 imm ops, ops = .rri r0 r1 imm ∨ ops = .rm r0 r1 imm →
      (∀ rd rs1, Knows s.cfg r0 rd → Knows s.cfg r1 rs1 → Accepts s.cfg 12 imm →
        Answers (row.1 ops) s (.ok (BitVec.ofInt 12 imm ++ rs1 ++ row.2.2 ++ rd ++ row.2.1))) ∧
      (Unknown s.cfg r0 → Answers (row.1 ops) s (.err .unknownRegister .r0)) ∧
      (∀ rd, Knows s.cfg r0 rd → Unknown s.cfg r1 → Answers (row.1 ops) s (.err .unknownRegister .r1)) ∧
      (∀ rd rs1, Knows s.cfg r0 rd → Knows s.cfg r1 rs1 → ¬ Accepts s.cfg 12 imm →
        Answers (row.1 ops) s (.err .malformedOperand .imm))) ∧
    (∀ ops, (∀ r0 r1 imm, ops ≠ .rri r0 r1 imm ∧ ops ≠ .rm r0 r1 imm) →
      Answers (row.1 ops) s (.err .malformedOperand .form))

/-- R162 to R164 (G1, G3) with the errors of R161 (D6 to D8, D24): operand 0 goes to `rs2`, the base to `rs1`, the offset is split. -/
def Obligations.StoreInstructions : Prop :=
  ∀ s : State, s.cfg.tables = Tables.defaultInstance → ∀ row ∈ instrsS,
    (∀ r0 base offset,
      (∀ rs2 rs1, Knows s.cfg r0 rs2 → Knows s.cfg base rs1 → Accepts s.cfg 12 offset →
        Answers (row.1 (.rm r0 base offset)) s
          (.ok ((BitVec.ofInt 12 offset).extractLsb' 5 7 ++ rs2 ++ rs1 ++ row.2 ++
            (BitVec.ofInt 12 offset).extractLsb' 0 5 ++ 0b0100011#7))) ∧
      (Unknown s.cfg r0 → Answers (row.1 (.rm r0 base offset)) s (.err .unknownRegister .r0)) ∧
      (∀ rs2, Knows s.cfg r0 rs2 → Unknown s.cfg base →
        Answers (row.1 (.rm r0 base offset)) s (.err .unknownRegister .r1)) ∧
      (∀ rs2 rs1, Knows s.cfg r0 rs2 → Knows s.cfg base rs1 → ¬ Accepts s.cfg 12 offset →
        Answers (row.1 (.rm r0 base offset)) s (.err .malformedOperand .imm))) ∧
    (∀ ops, (∀ r0 base offset, ops ≠ .rm r0 base offset) → Answers (row.1 ops) s (.err .malformedOperand .form))

/-- R172 to R177 (G2, G3) with the errors of R171 (D6 to D8, D24): operand 0 goes to `rs1`, operand 1 to `rs2`, the 13-bit offset is cut into
its four fields and bit 0 is dropped. -/
def Obligations.BranchInstructions : Prop :=
  ∀ s : State, s.cfg.tables = Tables.defaultInstance → ∀ row ∈ instrsSB,
    (∀ r0 r1 offset,
      (∀ rs1 rs2, Knows s.cfg r0 rs1 → Knows s.cfg r1 rs2 → Accepts s.cfg 13 offset →
        Answers (row.1 (.rri r0 r1 offset)) s
          (.ok ((BitVec.ofInt 13 offset).extractLsb' 12 1 ++ (BitVec.ofInt 13 offset).extractLsb' 5 6 ++ rs2 ++ rs1 ++
            row.2 ++ (BitVec.ofInt 13 offset).extractLsb' 1 4 ++ (BitVec.ofInt 13 offset).extractLsb' 11 1 ++
            0b1100011#7))) ∧
      (Unknown s.cfg r0 → Answers (row.1 (.rri r0 r1 offset)) s (.err .unknownRegister .r0)) ∧
      (∀ rs1, Knows s.cfg r0 rs1 → Unknown s.cfg r1 →
        Answers (row.1 (.rri r0 r1 offset)) s (.err .unknownRegister .r1)) ∧
      (∀ rs1 rs2, Knows s.cfg r0 rs1 → Knows s.cfg r1 rs2 → ¬ Accepts s.cfg 13 offset →
        Answers (row.1 (.rri r0 r1 offset)) s (.err .malformedOperand .imm))) ∧
    (∀ ops, (∀ r0 r1 offset, ops ≠ .rri r0 r1 offset) → Answers (row.1 ops) s (.err .malformedOperand .form))

/-- R108 (D8), for every instruction of the opcode table and every table instance: the errors in their order, the first
unknown name reported, and a word exactly where none applies. -/
def Obligations.ErrorOrderOfTheBlock : Prop :=
  ∀ (i : Instr) (s : State), ∃ r, Answers i s r ∧
    (s.cfg.tables.classOf i.mnemonic.key = none → r = .err .unknownMnemonic .mn) ∧
    (∀ cls, s.cfg.tables.classOf i.mnemonic.key = some cls →
      (i.operands.fits cls = false → r = .err .malformedOperand .form) ∧
      (i.operands.fits cls = true →
        (∀ (n : Nat) (name : Token), i.operands.names[n]? = some name → Unknown s.cfg name →
          (∀ (m : Nat) (earlier : Token), m < n → i.operands.names[m]? = some earlier → ¬ Unknown s.cfg earlier) →
          some r = [BlockResult.err .unknownRegister .r0, .err .unknownRegister .r1, .err .unknownRegister .r2][n]?) ∧
        ((∀ name ∈ i.operands.names, ¬ Unknown s.cfg name) →
          (∀ v, i.operands.int = some v → ¬ Accepts s.cfg cls.immWidth v → r = .err .malformedOperand .imm) ∧
          ((∀ v, i.operands.int = some v → Accepts s.cfg cls.immWidth v) → ∃ w, r = .ok w))))

/-- An instruction has a word exactly where it is well-formed for the configuration (R108). -/
def Obligations.WordExactlyWhereWellFormed : Prop :=
  ∀ (i : Instr) (s : State), (∃ w, Answers i s (.ok w)) ↔ i.wellFormed s.cfg = true

/-- What an instruction leaves unchanged: the parameters, the inputs still to come and the outcomes handed back (R20,
R22, R196). -/
def Obligations.InstructionFrame : Prop :=
  ∀ (i : Instr) (s t : State), exec i s = .next t → t.cfg = s.cfg ∧ t.inputs = s.inputs ∧ t.outputs = s.outputs

/-- Bit 0 of a branch offset is dropped without error (R42, R170): an odd offset answers as the one below it. -/
def Obligations.OddBranchOffsetAnswersAsTheEvenOneBelow : Prop :=
  ∀ s : State, s.cfg.tables = Tables.defaultInstance → ∀ row ∈ instrsSB, ∀ r0 r1 offset, offset % 2 = 1 →
    exec (row.1 (.rri r0 r1 offset)) s = exec (row.1 (.rri r0 r1 (offset - 1))) s

/-- The aliasing bands of R60: a negative value of the accepted range and the one `2^w` above it give one outcome. -/
def Obligations.AliasingBandsGiveOneWord : Prop :=
  ∀ s : State, s.cfg.tables = Tables.defaultInstance → ∀ r0 r1 v,
    (-4096 ≤ v → v < 0 → ∀ row ∈ instrsI,
      exec (row.1 (.rri r0 r1 v)) s = exec (row.1 (.rri r0 r1 (v + 4096))) s ∧
      exec (row.1 (.rm r0 r1 v)) s = exec (row.1 (.rm r0 r1 (v + 4096))) s) ∧
    (-4096 ≤ v → v < 0 → ∀ row ∈ instrsS,
      exec (row.1 (.rm r0 r1 v)) s = exec (row.1 (.rm r0 r1 (v + 4096))) s) ∧
    (-8192 ≤ v → v < 0 → ∀ row ∈ instrsSB,
      exec (row.1 (.rri r0 r1 v)) s = exec (row.1 (.rri r0 r1 (v + 8192))) s)

/-- Every word carries the constant bits of its mnemonic's row and of no other row, and ends in `11` (R67, R69). -/
def Obligations.WordCarriesItsOwnRow : Prop :=
  ∀ (i : Instr) (s : State) (w : Word), s.cfg.tables = Tables.defaultInstance → Answers i s (.ok w) →
    (∀ r ∈ opcodeRows, r.fits w = true ↔ r.mn = i.mnemonic) ∧ w.extractLsb' 0 2 = 0b11#2

/-! ## The block: requests, tables, decoders -/

/-- R105 (D1): fields a form does not use cannot change the outcome. -/
def Obligations.UnusedRequestFieldsAreIgnored : Prop :=
  ∀ (c : Config) (mn r0 r1 r2 r0' r1' r2' : Token) (imm imm' : Int),
    encodeFields c ⟨mn, .rrr, r0, r1, r2, imm⟩ = encodeFields c ⟨mn, .rrr, r0, r1, r2, imm'⟩ ∧
    encodeFields c ⟨mn, .rri, r0, r1, r2, imm⟩ = encodeFields c ⟨mn, .rri, r0, r1, r2', imm⟩ ∧
    encodeFields c ⟨mn, .rm, r0, r1, r2, imm⟩ = encodeFields c ⟨mn, .rm, r0, r1, r2', imm⟩ ∧
    encodeFields c ⟨mn, .reserved, r0, r1, r2, imm⟩ = encodeFields c ⟨mn, .reserved, r0', r1', r2', imm'⟩

/-- R109: every request is answered, and under `truncate` (D6) no immediate is at fault. -/
def Obligations.TruncatePolicyHasNoImmediateError : Prop :=
  ∀ (c : Config) (q : HwReq), c.policy = .truncate →
    (∃ w, encodeFields c q = .ok w) ∨ encodeFields c q = .err .unknownMnemonic .mn ∨
      encodeFields c q = .err .malformedOperand .form ∨
      ∃ slot ∈ [Slot.r0, .r1, .r2], encodeFields c q = .err .unknownRegister slot

/-- R101: an unknown mnemonic is reported whatever the operands are, for a request and for a line. -/
def Obligations.UnknownMnemonicBeforeEverything : Prop :=
  ∀ c : Config, (∀ q : HwReq, encodeFields c q = .err .unknownMnemonic .mn ↔ c.tables.classOf q.mn = none) ∧
    ∀ (l : Line) (mn : Token) (ops : List Token), normalise l = mn :: ops → c.tables.classOf mn = none →
      encodeInstruction c l = .err ⟨.unknownMnemonic, mn, l⟩

/-- R100 (D14) in the default instance (G3): the host is told the class of each of the thirty mnemonics, and that any other token
is unknown. -/
def Obligations.ClassifierOfTheDefaultInstance : Prop :=
  ∀ (s : State) (mn : Token) (rest : List Input), s.cfg.tables = Tables.defaultInstance →
    s.inputs = .classify mn :: rest →
    ∃ t r, step s = .next t ∧ t.outputs = s.outputs ++ [.classified r] ∧ t.inputs = rest ∧
      (r = some .R ↔ mn ∈ [Mnemonic.add, .sub, .sll, .slt, .sltu, .xor, .srl, .sra, .or, .and].map Mnemonic.key) ∧
      (r = some .I ↔
        mn ∈ [Mnemonic.addi, .slti, .sltiu, .xori, .ori, .andi, .lb, .lh, .lw, .lbu, .lhu].map Mnemonic.key) ∧
      (r = some .S ↔ mn ∈ [Mnemonic.sb, .sh, .sw].map Mnemonic.key) ∧
      (r = some .SB ↔ mn ∈ [Mnemonic.beq, .bne, .blt, .bge, .bltu, .bgeu].map Mnemonic.key)

/-- R103: after a successful classification the constant lookups cannot fail, in any instance, and F7 is consulted for
class R alone. -/
def Obligations.ConstantLookupsCannotFail : Prop :=
  ∀ (c : Config) (mn : Token) (cls : FormatClass), c.tables.classOf mn = some cls →
    (lookup c.tables.opc mn).isSome = true ∧ (lookup c.tables.f3 mn).isSome = true ∧
      (cls = .R → (lookup c.tables.f7 mn).isSome = true) ∧ (c.tables.constantsOf mn cls).isSome = true ∧
      (cls ≠ .R → ∀ f7, Tables.constantsOf { c.tables with f7 := f7 } mn cls = c.tables.constantsOf mn cls)

/-- R24 (D3, D23) and R61 (D4): an instance of the tables makes a configuration exactly where it meets the invariant and
contains what the source fixes of the five mnemonics it names (R62; of `sw` and `beq` the class, log entry 10). -/
def Obligations.IllFormedTablesAreRefused : Prop :=
  ∀ (t : Tables) (p : OverflowPolicy),
    (∃ c, Config.ofTables t p = some c ∧ c.tables = t ∧ c.policy = p) ↔
      ((t.fmt.map (·.1)).Nodup ∧ (t.opc.map (·.1)).Nodup ∧ (t.f3.map (·.1)).Nodup ∧ (t.f7.map (·.1)).Nodup ∧
        (t.reg.map (·.1)).Nodup) ∧
      (∀ k ∈ t.fmt.map (·.1) ++ t.opc.map (·.1) ++ t.f3.map (·.1) ++ t.f7.map (·.1) ++ t.reg.map (·.1),
        1 ≤ k.length ∧ k.length ≤ 8 ∧ ∀ b ∈ k, isNameChar b = true) ∧
      (∀ mn cls, (mn, cls) ∈ t.fmt → mn ∈ t.opc.map (·.1) ∧ mn ∈ t.f3.map (·.1) ∧
        (cls = .R → mn ∈ t.f7.map (·.1))) ∧
      ((Mnemonic.key .add, FormatClass.R) ∈ t.fmt ∧ (Mnemonic.key .add, 0b0110011#7) ∈ t.opc ∧
        (Mnemonic.key .add, 0b000#3) ∈ t.f3 ∧ (Mnemonic.key .add, 0b0000000#7) ∈ t.f7) ∧
      ((Mnemonic.key .addi, FormatClass.I) ∈ t.fmt ∧ (Mnemonic.key .addi, 0b0010011#7) ∈ t.opc ∧
        (Mnemonic.key .addi, 0b000#3) ∈ t.f3) ∧
      ((Mnemonic.key .lw, FormatClass.I) ∈ t.fmt ∧ (Mnemonic.key .lw, 0b0000011#7) ∈ t.opc ∧
        (Mnemonic.key .lw, 0b010#3) ∈ t.f3) ∧
      (Mnemonic.key .sw, FormatClass.S) ∈ t.fmt ∧ (Mnemonic.key .beq, FormatClass.SB) ∈ t.fmt

/-- R25, R26 and R27 (G4): the 65 names of the default instance with their indices, and no other name. -/
def Obligations.RegisterNamesOfTheDefaultInstance : Prop :=
  (∀ r : RegIndex, Knows .defaultInstance (xName r) r) ∧
  (∀ row ∈ ([(tok ['z', 'e', 'r', 'o'], 0), (tok ['r', 'a'], 1), (tok ['s', 'p'], 2), (tok ['g', 'p'], 3),
      (tok ['t', 'p'], 4), (tok ['t', '0'], 5), (tok ['t', '1'], 6), (tok ['t', '2'], 7), (tok ['s', '0'], 8),
      (tok ['f', 'p'], 8), (tok ['s', '1'], 9), (tok ['a', '0'], 10), (tok ['a', '1'], 11), (tok ['a', '2'], 12),
      (tok ['a', '3'], 13), (tok ['a', '4'], 14), (tok ['a', '5'], 15), (tok ['a', '6'], 16), (tok ['a', '7'], 17),
      (tok ['s', '2'], 18), (tok ['s', '3'], 19), (tok ['s', '4'], 20), (tok ['s', '5'], 21), (tok ['s', '6'], 22),
      (tok ['s', '7'], 23), (tok ['s', '8'], 24), (tok ['s', '9'], 25), (tok ['s', '1', '0'], 26),
      (tok ['s', '1', '1'], 27), (tok ['t', '3'], 28), (tok ['t', '4'], 29), (tok ['t', '5'], 30),
      (tok ['t', '6'], 31)] : List (Token × RegIndex)), Knows .defaultInstance row.1 row.2) ∧
  (Tables.defaultInstance.reg.map (·.1)).Nodup ∧ Tables.defaultInstance.reg.length = 65 ∧
  (∀ t ∈ [tok ['x', '3', '2'], tok ['x', '0', '1'], tok ['X', '1'], tok ['x']], Unknown .defaultInstance t)

/-- A word of the tables restricted to what the source fixes is the word of the default instance (R61, D4). -/
def Obligations.SourceOnlyWordsAreDefaultWords : Prop :=
  ∀ (q : HwReq) (w : Word), encodeFields .sourceOnly q = .ok w → encodeFields .defaultInstance q = .ok w

/-! ## The formatter and the packers -/

/-- R80: a non-negative value that fits is written in plain binary, the upper half included, under either policy. -/
def Obligations.FormatterWritesNonNegativeValues : Prop :=
  ∀ (p : OverflowPolicy) (w : Nat) (v : Int), 0 < w → 0 ≤ v → v < 2 ^ w →
    ∃ b, bin p v w = some b ∧ (b.toNat : Int) = v

/-- R81: a negative value down to `-2^w` is written as `2^w + v`. -/
def Obligations.FormatterWritesNegativeValues : Prop :=
  ∀ (p : OverflowPolicy) (w : Nat) (v : Int), 0 < w → -(2 ^ w : Int) ≤ v → v < 0 →
    ∃ b, bin p v w = some b ∧ (b.toNat : Int) = 2 ^ w + v

/-- R82 (D6, D7): outside the domain the policy decides, an error or `v mod 2^w`. -/
def Obligations.FormatterOutsideTheDomain : Prop :=
  ∀ (w : Nat) (v : Int), 0 < w → (v < -(2 ^ w : Int) ∨ 2 ^ w ≤ v) →
    bin .error v w = none ∧ ∃ b, bin .truncate v w = some b ∧ (b.toNat : Int) = v % 2 ^ w

/-- R83 (b) and (c): the field reads back as two's complement, exactly in the middle band and one `2^w` off in the
outer bands. -/
def Obligations.FormatterReadsBack : Prop :=
  ∀ (p : OverflowPolicy) (w : Nat) (v : Int) (b : BitVec w), 0 < w → bin p v w = some b →
    (-(2 ^ (w - 1) : Int) ≤ v → v < 2 ^ (w - 1) → b.toInt = v) ∧
    (2 ^ (w - 1) ≤ v → v < 2 ^ w → b.toInt = v - 2 ^ w) ∧
    (-(2 ^ w : Int) ≤ v → v < -(2 ^ (w - 1) : Int) → b.toInt = v + 2 ^ w)

/-- R120, R140, R160 and R170: where each field stands in the word of each packer; the split loses no bit of an S
immediate, and of an SB offset bit 0 alone. -/
def Obligations.PackersPlaceEveryField : Prop :=
  ∀ (f7 opc : BitVec 7) (f3 : BitVec 3) (rd rs1 rs2 : RegIndex) (i12 : BitVec 12) (i13 : BitVec 13),
    (∀ w ∈ [packR f7 rs2 rs1 f3 rd opc, packI i12 rs1 f3 rd opc, packS i12 rs2 rs1 f3 opc, packSB i13 rs2 rs1 f3 opc],
      w.extractLsb' 0 7 = opc ∧ w.extractLsb' 12 3 = f3 ∧ w.extractLsb' 15 5 = rs1) ∧
    (∀ w ∈ [packR f7 rs2 rs1 f3 rd opc, packI i12 rs1 f3 rd opc], w.extractLsb' 7 5 = rd) ∧
    (∀ w ∈ [packR f7 rs2 rs1 f3 rd opc, packS i12 rs2 rs1 f3 opc, packSB i13 rs2 rs1 f3 opc],
      w.extractLsb' 20 5 = rs2) ∧
    (packR f7 rs2 rs1 f3 rd opc).extractLsb' 25 7 = f7 ∧
    (packI i12 rs1 f3 rd opc).extractLsb' 20 12 = i12 ∧
    (packS i12 rs2 rs1 f3 opc).extractLsb' 25 7 = i12.extractLsb' 5 7 ∧
    (packS i12 rs2 rs1 f3 opc).extractLsb' 7 5 = i12.extractLsb' 0 5 ∧
    (packS i12 rs2 rs1 f3 opc).extractLsb' 25 7 ++ (packS i12 rs2 rs1 f3 opc).extractLsb' 7 5 = i12 ∧
    (packSB i13 rs2 rs1 f3 opc).extractLsb' 31 1 = i13.extractLsb' 12 1 ∧
    (packSB i13 rs2 rs1 f3 opc).extractLsb' 25 6 = i13.extractLsb' 5 6 ∧
    (packSB i13 rs2 rs1 f3 opc).extractLsb' 8 4 = i13.extractLsb' 1 4 ∧
    (packSB i13 rs2 rs1 f3 opc).extractLsb' 7 1 = i13.extractLsb' 11 1 ∧
    packSB i13 rs2 rs1 f3 opc = packSB (i13 &&& ~~~1#13) rs2 rs1 f3 opc

/-! ## Decoding and encoding -/

/-- Words written out from the spec's encodings (R122, R142, R150, R164, R172) decode to the instruction they stand
for. -/
def Obligations.WrittenOutWordsDecode : Prop :=
  decodeWord 0b00000000001100010000000010110011 =
      .ok (.add (.rrr (tok ['x', '1']) (tok ['x', '2']) (tok ['x', '3']))) ∧
  decodeWord 0b11111111111100000000001010010011 = .ok (.addi (.rri (tok ['x', '5']) (tok ['x', '0']) (-1))) ∧
  decodeWord 0b00000000100000010010010100000011 = .ok (.lw (.rm (tok ['x', '1', '0']) (tok ['x', '2']) 8)) ∧
  decodeWord 0b11111110001100101010111000100011 = .ok (.sw (.rm (tok ['x', '3']) (tok ['x', '5']) (-4))) ∧
  decodeWord 0b00000000001000001000010001100011 = .ok (.beq (.rri (tok ['x', '1']) (tok ['x', '2']) 8))

/-- No word has the constant bits of two rows (R67). -/
def Obligations.OpcodeRowsAreDisjoint : Prop :=
  ∀ r ∈ opcodeRows, ∀ r' ∈ opcodeRows, ∀ w : Word, r.fits w = true → r'.fits w = true → r = r'

/-- Decoding the word of an instruction gives the instruction back in the decoder's spelling: every register, every
immediate of the accepted range, every form, all thirty mnemonics (R67, the round trip of `95_test_vectors.md`
section 1.2). -/
def Obligations.DecodingAnEncodedInstruction : Prop :=
  ∀ (i : Instr) (w : Word), encode i = some w → decodeWord w = .ok i.canon

/-- Encoding a decoded word gives the word back, and the decoder's spelling is its own. -/
def Obligations.EncodingADecodedWord : Prop :=
  ∀ (w : Word) (i : Instr), decodeWord w = .ok i → encode i = some w ∧ i.canon = i

/-- The machine packs by concatenation; the encoder lays fields into the pattern of the opcode table. With the values
of R6 they agree on every instruction and every operand (R67, R107). -/
def Obligations.MachineAgreesWithTheOpcodeTable : Prop :=
  ∀ (i : Instr) (s : State) (w : Word), s.cfg = Config.defaultInstance → (Answers i s (.ok w) ↔ encode i = some w)

/-! ## The step -/

/-- A step runs the instruction the next input asks for and hands its outcome to the host: from a request, from a
source line, from the ports, and from a word put there by `withFetchWord` (log entry 3). -/
def Obligations.StepRunsTheRequestedInstruction : Prop :=
  ∀ (s u : State) (rest : List Input) (i : Instr) (r : BlockResult),
    exec i (s.advance rest) = .next u → u.resp = some r →
    (∀ q, s.inputs = .request q :: rest → instrOf q = some i → step s = .next (u.emit (.block r))) ∧
    (∀ l q ops, s.inputs = .line l :: rest → frontEnd s.cfg l = .request q ops → instrOf q = some i →
      step s = .next (u.emit (.text (textResult l q ops r)))) ∧
    (∀ p, s.inputs = .wires p :: rest → p.reqValid = true → instrOf (portRequest p) = some i →
      step s = .next (u.emit (.wires (drive s.cfg p (some r))))) ∧
    (∀ nbits w, s.inputs = rest → decodeTableWord nbits w = some i →
      step (s.withFetchWord nbits w) = .next (u.emit (.block r)))

/-- A word of the opcode table, decoded, run as the next request, comes back as the block's outcome: through decoder,
key lookup, tables, register decoder, formatter and packer, for every word. -/
def Obligations.FetchedWordComesBack : Prop :=
  ∀ (s : State) (w : Word) (i : Instr), s.cfg.tables = Tables.defaultInstance → decodeWord w = .ok i →
    ∃ t, step (s.withFetchWord 32 w.toNat) = .next t ∧ t.outputs = s.outputs ++ [.block (.ok w)] ∧
      t.inputs = s.inputs ∧ t.cfg = s.cfg

/-- Every step answers a next state and every instruction is answered: no input ends a run, and there is no exceptional
outcome but the three errors handed back (R190, R217; errors as next states, log entry 7). -/
def Obligations.EveryStepAnswers : Prop :=
  ∀ s : State, (∃ t, step s = .next t) ∧ ∀ i, ∃ r, Answers i s r

/-- A step changes no parameter (R23, R36), takes at most the first input, and adds at most one outcome at the end. -/
def Obligations.StepFrame : Prop :=
  ∀ s t : State, step s = .next t → t.cfg = s.cfg ∧ t.inputs = s.inputs.tail ∧
    (s.inputs = [] → t.outputs = s.outputs ∧ t.resp = none) ∧
    (s.inputs ≠ [] → ∃ o, t.outputs = s.outputs ++ [o])

/-- The outcome of an input does not depend on what was evaluated before, on what comes after, or on the state the
response wires are in: for lines, requests and classifications by R46. For port inputs it says the same of every wire,
those that R32 leaves unspecified included (log entry 4, a choice that rests on R30 and R211, D2 and D20), and it says
that the response field is equal, which is the model's own (log entry 1). -/
def Obligations.OutcomeIndependentOfHistory : Prop :=
  ∀ (s s' t t' : State) (x : Input) (rest rest' : List Input), s.cfg = s'.cfg →
    s.inputs = x :: rest → s'.inputs = x :: rest' → step s = .next t → step s' = .next t' →
    ∃ o, t.outputs = s.outputs ++ [o] ∧ t'.outputs = s'.outputs ++ [o] ∧ t.resp = t'.resp

/-- A run over any inputs takes one step for each and hands back each one's own outcome, in order, failed ones
included (R199, R213, R217). -/
def Obligations.RunAnswersEveryInputInOrder : Prop :=
  ∀ s : State, ∃ t, Sys2Proof.core.run s.inputs.length s = .next t ∧ t.inputs = [] ∧ t.cfg = s.cfg ∧
    t.outputs = s.outputs ++ s.inputs.map (outcome s.cfg)

/-- The invariant holds at reset. -/
def Obligations.ResetMeetsTheInvariant : Prop := Inv State.reset

/-- Every step keeps the invariant: the block hands back only words of the opcode table, as words, as text and on the
wires (R67, R93). -/
def Obligations.StepKeepsTheInvariant : Prop :=
  ∀ s t : State, Inv s → step s = .next t → Inv t

/-- Reset leaves the parameters of R6 and nothing presented or handed back (R36, R210; the fields are the model's own,
log entry 1). -/
def Obligations.ResetHoldsTheParametersAndNothingElse : Prop :=
  State.reset.cfg.tables = Tables.defaultInstance ∧ State.reset.cfg.policy = .error ∧ State.reset.inputs = [] ∧
    State.reset.resp = none ∧ State.reset.outputs = []

/-! ## The front end and the text contract -/

/-- R85 (D10): what the normaliser does, in full: whitespace separates, a comma vanishes, and a token stays whole. -/
def Obligations.NormaliserSplitsAtWhitespaceOnly : Prop :=
  (∀ (l l' : Line) (b : Byte), isSpace b = true → normalise (l ++ b :: l') = normalise l ++ normalise l') ∧
  (∀ l l' : Line, normalise (l ++ ascii ',' :: l') = normalise (l ++ l')) ∧
  (∀ t : Token, PlainToken t → normalise t = [t]) ∧ normalise [] = []

/-- The tokens of a line are non-empty, hold no whitespace and no comma, and together are the line's other characters
in order (R85). -/
def Obligations.NormaliserKeepsTheOtherCharacters : Prop :=
  ∀ l : Line, (∀ t ∈ normalise l, PlainToken t) ∧
    (normalise l).flatten = l.filter (fun b => !isSpace b && !isComma b)

/-- R86 (commas alone by the spec's own inference): a line is blank exactly where it holds only whitespace and commas; then the outcome is the empty string, no
request reaches the block, and no other line has that outcome. -/
def Obligations.BlankLinesPassThrough : Prop :=
  ∀ (c : Config) (l : Line),
    (encodeInstruction c l = .ok [] ↔ ∀ b ∈ l, isSpace b = true ∨ b = ascii ',') ∧
    (encodeInstruction c l = .ok [] → ∀ (s t : State) (rest : List Input), s.cfg = c → s.inputs = .line l :: rest →
      step s = .next t → t.resp = none ∧ t.outputs = s.outputs ++ [.text (.ok [])])

/-- R88 (D12): the integer token is an optional minus sign and one or more decimal digits, whole, and its value is theirs. -/
def Obligations.IntegerTokenGrammar : Prop :=
  ∀ (t : Token) (v : Int), parseInt t = some v ↔
    ∃ ds : Token, ds ≠ [] ∧ (∀ d ∈ ds, 0x30 ≤ d.toNat ∧ d.toNat ≤ 0x39) ∧
      ((t = ds ∧ v = ds.foldl (fun (n : Int) d => 10 * n + (d.toNat - 0x30)) 0) ∨
       (t = ascii '-' :: ds ∧ v = -(ds.foldl (fun (n : Int) d => 10 * n + (d.toNat - 0x30)) 0)))

/-- R89 (D12, D13): the memory reference is `INT '(' NAME ')'`, whole, and stands for the value of INT and the name. -/
def Obligations.MemoryReferenceGrammar : Prop :=
  ∀ (t base : Token) (v : Int), parseMem t = some (v, base) ↔
    ∃ n : Token, t = memToken n base ∧ parseInt n = some v ∧ base ≠ [] ∧ ∀ b ∈ base, isNameChar b = true

/-- R195 (D8, D9): the error reported for a line, step by step, and the token and line it carries (R194). -/
def Obligations.ErrorPriorityOnLines : Prop :=
  ∀ (c : Config) (l : Line) (mn : Token) (ops : List Token), normalise l = mn :: ops →
    (c.tables.classOf mn = none → encodeInstruction c l = .err ⟨.unknownMnemonic, mn, l⟩) ∧
    (∀ cls, c.tables.classOf mn = some cls →
      -- class R
      (cls = .R →
        (ops.length ≠ 3 → encodeInstruction c l = .err ⟨.malformedOperand, [], l⟩) ∧
        (∀ a b d, ops = [a, b, d] →
          (Unknown c a → encodeInstruction c l = .err ⟨.unknownRegister, a, l⟩) ∧
          (¬ Unknown c a → Unknown c b → encodeInstruction c l = .err ⟨.unknownRegister, b, l⟩) ∧
          (¬ Unknown c a → ¬ Unknown c b → Unknown c d →
            encodeInstruction c l = .err ⟨.unknownRegister, d, l⟩))) ∧
      -- a memory reference: class S, and class I with a parenthesis in the second operand
      (cls = .S ∨ (cls = .I ∧ ∃ m, ops[1]? = some m ∧ ascii '(' ∈ m) →
        (ops.length ≠ 2 → encodeInstruction c l = .err ⟨.malformedOperand, [], l⟩) ∧
        (∀ a m, ops = [a, m] →
          (parseMem m = none → encodeInstruction c l = .err ⟨.malformedOperand, m, l⟩) ∧
          (∀ v base, parseMem m = some (v, base) →
            (Unknown c a → encodeInstruction c l = .err ⟨.unknownRegister, a, l⟩) ∧
            (¬ Unknown c a → Unknown c base → encodeInstruction c l = .err ⟨.unknownRegister, base, l⟩) ∧
            (¬ Unknown c a → ¬ Unknown c base → ¬ Accepts c 12 v →
              encodeInstruction c l = .err ⟨.malformedOperand, m, l⟩)))) ∧
      -- an integer: class SB, and class I otherwise
      (cls = .SB ∨ (cls = .I ∧ ¬ ∃ m, ops[1]? = some m ∧ ascii '(' ∈ m) →
        (ops.length ≠ 3 → encodeInstruction c l = .err ⟨.malformedOperand, [], l⟩) ∧
        (∀ a b n, ops = [a, b, n] →
          (parseInt n = none → encodeInstruction c l = .err ⟨.malformedOperand, n, l⟩) ∧
          (∀ v, parseInt n = some v →
            (Unknown c a → encodeInstruction c l = .err ⟨.unknownRegister, a, l⟩) ∧
            (¬ Unknown c a → Unknown c b → encodeInstruction c l = .err ⟨.unknownRegister, b, l⟩) ∧
            (¬ Unknown c a → ¬ Unknown c b → ¬ Accepts c cls.immWidth v →
              encodeInstruction c l = .err ⟨.malformedOperand, n, l⟩)))))

/-- A line in the usual spelling falls into its mnemonic and operands (R71, R85). -/
def Obligations.UsualSpellingNormalises : Prop :=
  ∀ (mn : Token) (ops : List Token), PlainToken mn → (∀ t ∈ ops, PlainToken t) →
    normalise (sourceLine mn ops) = mn :: ops

/-- The text contract on the usual spelling of each class: where the block has a word for the operands, the line has
its 32 characters, for every table instance (R71, R92, R93). -/
def Obligations.SourceLinesGiveTheirWords : Prop :=
  ∀ (c : Config) (mn a b : Token) (cls : FormatClass) (w : Word), PlainToken mn → PlainToken a → PlainToken b →
    c.tables.classOf mn = some cls →
    (∀ d, PlainToken d → cls = .R → encodeOperands c mn (.rrr a b d) = .ok w →
      encodeInstruction c (sourceLine mn [a, b, d]) = .ok (bitString w)) ∧
    (∀ n v, parseInt n = some v → cls = .I ∨ cls = .SB → encodeOperands c mn (.rri a b v) = .ok w →
      encodeInstruction c (sourceLine mn [a, b, n]) = .ok (bitString w)) ∧
    (∀ n v, parseInt n = some v → cls = .I ∨ cls = .S → encodeOperands c mn (.rm a b v) = .ok w →
      encodeInstruction c (sourceLine mn [a, memToken n b]) = .ok (bitString w))

/-- R91 (D13): for a class-I mnemonic the register form and the memory form with the same parts have the same successful
outcome, whichever the mnemonic. -/
def Obligations.BothFormsOfClassIAgree : Prop :=
  ∀ (c : Config) (l l' : Line) (mn a b n : Token) (text : Line), c.tables.classOf mn = some .I →
    (b ≠ [] ∧ ∀ x ∈ b, isNameChar x = true) →
    normalise l = [mn, a, b, n] → normalise l' = [mn, a, memToken n b] →
    (encodeInstruction c l = .ok text ↔ encodeInstruction c l' = .ok text)

/-- R93: a successful line that is not blank has exactly 32 characters, character `k` the bit `31-k` of the word the
block answered. -/
def Obligations.SuccessfulTextIsTheWord : Prop :=
  ∀ (c : Config) (l text : Line), encodeInstruction c l = .ok text → text ≠ [] →
    ∃ q ops w, frontEnd c l = .request q ops ∧ encodeFields c q = .ok w ∧ text.length = 32 ∧
      ∀ k, k < 32 → text[k]? = some (if w.getLsbD (31 - k) then ascii '1' else ascii '0')

/-- The source's six scenarios (`95_test_vectors.md` section 1.1). -/
def Obligations.ScenariosOfTheSource : Prop :=
  ∀ row ∈ [(sourceLine (tok ['a', 'd', 'd']) [tok ['x', '1'], tok ['x', '2'], tok ['x', '3']],
      TextResult.ok (bitString 0b00000000001100010000000010110011#32)),
    (sourceLine (tok ['a', 'd', 'd', 'i']) [tok ['x', '5'], tok ['x', '0'], tok ['-', '1']],
      .ok (bitString 0b11111111111100000000001010010011#32)),
    (sourceLine (tok ['l', 'w']) [tok ['x', '1', '0'], tok ['8', '(', 'x', '2', ')']],
      .ok (bitString 0b00000000100000010010010100000011#32)),
    (sourceLine (tok ['s', 'w']) [tok ['x', '3'], tok ['-', '4', '(', 'x', '5', ')']],
      .ok (bitString 0b11111110001100101010111000100011#32)),
    (sourceLine (tok ['b', 'e', 'q']) [tok ['x', '1'], tok ['x', '2'], tok ['8']],
      .ok (bitString 0b00000000001000001000010001100011#32)),
    (sourceLine (tok ['f', 'o', 'o']) [tok ['x', '1'], tok ['x', '2'], tok ['x', '3']],
      .err ⟨.unknownMnemonic, tok ['f', 'o', 'o'],
        sourceLine (tok ['f', 'o', 'o']) [tok ['x', '1'], tok ['x', '2'], tok ['x', '3']]⟩)],
    encodeInstruction .defaultInstance row.1 = row.2

/-! ## The ports -/

/-- R33 (D3): a token on a key port matches a key exactly where it is that key. -/
def Obligations.KeyPortMatchesExactlyTheKey : Prop :=
  ∀ t key : Token, isKey key = true → (packKey t = packKey key ↔ t = key)

/-- The port level computes the function of the model level (R13, R32 to R34, R194; D3, D15): `status`, and the word or the slot
that goes with it, for every request the front end can put on the ports; and what it cannot has no word. -/
def Obligations.PortLevelComputesTheModelLevel : Prop :=
  ∀ (c : Config) (q : HwReq),
    (∀ p, toPorts c q = some p → (rvEncoder c p).respValid = true ∧
      ((rvEncoder c p).mnHit = true ↔ (c.tables.classOf q.mn).isSome = true) ∧
      (∀ cls, c.tables.classOf q.mn = some cls → (rvEncoder c p).cls = classCode cls) ∧
      (∀ w, encodeFields c q = .ok w → (rvEncoder c p).status = 0 ∧ (rvEncoder c p).word = w) ∧
      (∀ kind slot, encodeFields c q = .err kind slot →
        (rvEncoder c p).status = errorCode kind ∧ (rvEncoder c p).errSlot = slotCode slot)) ∧
    (toPorts c q = none → ∀ w, encodeFields c q ≠ .ok w)

/-- R32 and R211 (D3, D16, D20): `resp_valid` follows `req_valid`, and `mn_hit` and `cls` follow `mn_key` alone, on a
hit and on a miss. -/
def Obligations.HitAndClassFollowTheMnemonicKey : Prop :=
  ∀ (c : Config) (p p' : PortIn), (rvEncoder c p).respValid = p.reqValid ∧
    (p.mnKey = p'.mnKey → (rvEncoder c p).mnHit = (rvEncoder c p').mnHit ∧ (rvEncoder c p).cls = (rvEncoder c p').cls)

/-! ## The shell -/

/-- R200 (D21): whatever the open parameter is, the diagnostic line is one line, no word, not empty, and holds the token of
an unknown mnemonic or register. -/
def Obligations.DiagnosticLineKeepsItsConstraints : Prop :=
  ∀ e : EncodeError, newline ∉ e.tok →
    newline ∉ diag e ∧ diag e ≠ [] ∧ ¬ (∃ w : Word, diag e = bitString w) ∧
      (e.kind ≠ .malformedOperand → e.tok <:+: diag e)

/-- The output file has one newline for each input line, whatever the lines are (R199 to R201). -/
def Obligations.OutputFileStaysAligned : Prop :=
  ∀ (c : Config) (lines : List Line), (shellRun c lines).count newline = lines.length

/-- A run over the lines of a file gives the file's output (R199, R201, R213). -/
def Obligations.RunOverAFileGivesItsOutput : Prop :=
  ∀ (s : State) (lines : List Line), s.inputs = lines.map .line → s.outputs = [] →
    ∃ t, Sys2Proof.core.run lines.length s = .next t ∧ outputFile t.textResults = shellRun s.cfg lines
end

