-- ==== Sys2Proof/Laws/Formatter.lean ====
section
/-! SUPPORT. What the binary formatter does, said once for each side of its domain (`40_front_end.md` R80 to R83). -/

namespace Sys2Proof.Machine

/-- `v mod 2^w` is the `w`-bit vector of the integer. -/
theorem modBits_eq_ofInt (v : Int) (w : Nat) : modBits v w = BitVec.ofInt w v := by
  apply BitVec.eq_of_toNat_eq
  simp only [modBits, BitVec.toNat_ofNat, BitVec.toNat_ofInt]
  have h1 := Int.emod_nonneg v (b := ((2 ^ w : Nat) : Int)) (by positivity)
  have h2 := Int.emod_lt_of_pos v (b := ((2 ^ w : Nat) : Int)) (by positivity)
  exact Nat.mod_eq_of_lt (by omega)

/-- The domain, in the spec's terms. -/
theorem inDomain_iff (v : Int) (w : Nat) : inDomain v w = true ↔ -(2 ^ w : Int) ≤ v ∧ v < 2 ^ w := by
  simp [inDomain]

/-- In the domain the formatter answers under either policy. -/
theorem bin_of_inDomain (p : OverflowPolicy) {v : Int} {w : Nat} (h : inDomain v w = true) :
    bin p v w = some (BitVec.ofInt w v) := by
  simp [bin, h, modBits_eq_ofInt]

/-- Under `truncate` the formatter answers every value. -/
theorem bin_truncate (v : Int) (w : Nat) : bin .truncate v w = some (BitVec.ofInt w v) := by
  simp [bin, modBits_eq_ofInt]

/-- Under `error` it answers no value outside the domain. -/
theorem bin_error_of_not_inDomain {v : Int} {w : Nat} (h : inDomain v w = false) : bin .error v w = none := by
  simp [bin, h]

/-- Whatever the formatter answers is the `w`-bit vector of the integer. -/
theorem eq_ofInt_of_bin {p : OverflowPolicy} {v : Int} {w : Nat} {b : BitVec w} (h : bin p v w = some b) :
    b = BitVec.ofInt w v := by
  cases hd : inDomain v w with
  | true => rw [bin_of_inDomain p hd] at h; exact (Option.some.inj h).symm
  | false =>
    cases p with
    | error => rw [bin_error_of_not_inDomain hd] at h; cases h
    | truncate => rw [bin_truncate] at h; exact (Option.some.inj h).symm

end Sys2Proof.Machine
end

