-- ==== Sys2Proof/Laws/FrontEnd.lean ====
section
/-! SUPPORT. What the line normaliser and the token parsers do, in a form proofs can use (`40_front_end.md` R85 to
R89). -/

namespace Sys2Proof.Machine

theorem not_isComma_of_isSpace : ∀ b : Byte, isSpace b = true → isComma b = false := by decide +kernel

/-- Whitespace alone gives no token. -/
theorem splitWhitespace_of_spaces {l : Line} (h : ∀ b ∈ l, isSpace b = true) : splitWhitespace l = [] := by
  induction l with
  | nil => rfl
  | cons a l ih => simp [splitWhitespace, h a (by simp), ih (fun b hb => h b (by simp [hb]))]

/-- A run without whitespace is one token. -/
theorem splitWhitespace_of_no_space {t : Token} (h0 : t ≠ []) (h : ∀ b ∈ t, isSpace b = false) :
    splitWhitespace t = [t] := by
  induction t with
  | nil => exact absurd rfl h0
  | cons a l ih =>
    cases l with
    | nil => simp [splitWhitespace, h a (by simp), startsInToken]
    | cons c l =>
      have ih := ih (by simp) (fun b hb => h b (by simp [hb]))
      rw [splitWhitespace, ih]
      simp [h a (by simp), h c (by simp), startsInToken, extendFirst]

/-- A text that starts inside a token has a first token. -/
theorem splitWhitespace_ne_nil {l : Line} (h : startsInToken l = true) : ∃ t r, splitWhitespace l = t :: r := by
  cases l with
  | nil => simp [startsInToken] at h
  | cons c l =>
    have hc : isSpace c = false := by simpa [startsInToken] using h
    simp only [splitWhitespace, hc, Bool.false_eq_true, if_false]
    split
    · unfold extendFirst
      split <;> exact ⟨_, _, rfl⟩
    · exact ⟨_, _, rfl⟩

/-- The split falls apart at a whitespace character. -/
theorem splitWhitespace_append (l l' : Line) {b : Byte} (h : isSpace b = true) :
    splitWhitespace (l ++ b :: l') = splitWhitespace l ++ splitWhitespace l' := by
  induction l with
  | nil => simp [splitWhitespace, h]
  | cons a l ih =>
    have hs : startsInToken (l ++ b :: l') = startsInToken l := by cases l <;> simp [startsInToken, h]
    simp only [List.cons_append, splitWhitespace, hs, ih]
    split
    · rfl
    · split
      · rename_i h2
        obtain ⟨t, r, htr⟩ := splitWhitespace_ne_nil h2
        rw [htr]
        rfl
      · rfl

/-- The tokens are the text without its whitespace. -/
theorem flatten_splitWhitespace (l : Line) : (splitWhitespace l).flatten = l.filter (fun b => !isSpace b) := by
  induction l with
  | nil => rfl
  | cons a l ih =>
    simp only [splitWhitespace]
    cases ha : isSpace a with
    | true => simp [ha, ih]
    | false =>
      simp only [Bool.false_eq_true, if_false]
      split
      · unfold extendFirst
        split <;> (rename_i h; rw [h] at ih; simp [ha, ← ih])
      · simp [ha, ih]

/-- No token is empty, and a token's characters are characters of the text that are no whitespace. -/
theorem mem_splitWhitespace (l : Line) : ∀ t ∈ splitWhitespace l, t ≠ [] ∧ ∀ b ∈ t, isSpace b = false ∧ b ∈ l := by
  induction l with
  | nil => simp [splitWhitespace]
  | cons a l ih =>
    have ih' : ∀ t ∈ splitWhitespace l, t ≠ [] ∧ ∀ b ∈ t, isSpace b = false ∧ b ∈ a :: l := fun t ht =>
      ⟨(ih t ht).1, fun b hb => ⟨((ih t ht).2 b hb).1, List.mem_cons_of_mem _ ((ih t ht).2 b hb).2⟩⟩
    simp only [splitWhitespace]
    cases ha : isSpace a with
    | true => simpa using ih'
    | false =>
      simp only [Bool.false_eq_true, if_false]
      split
      · unfold extendFirst
        split
        · simp [ha]
        · rename_i t rest h
          rw [h] at ih'
          intro u hu
          rcases List.mem_cons.mp hu with rfl | hu
          · refine ⟨by simp, fun b hb => ?_⟩
            rcases List.mem_cons.mp hb with rfl | hb
            · exact ⟨ha, by simp⟩
            · exact (ih' t (by simp)).2 b hb
          · exact ih' u (by simp [hu])
      · intro u hu
        rcases List.mem_cons.mp hu with rfl | hu
        · simp [ha]
        · exact ih' u hu

theorem deleteCommas_append (a b : Line) : deleteCommas (a ++ b) = deleteCommas a ++ deleteCommas b := by
  simp [deleteCommas]

/-- What the strip removes is whitespace at the two ends. -/
theorem strip_spec (l : Line) :
    ∃ a b, l = a ++ strip l ++ b ∧ (∀ x ∈ a, isSpace x = true) ∧ ∀ x ∈ b, isSpace x = true := by
  refine ⟨l.takeWhile isSpace, ((l.dropWhile isSpace).reverse.takeWhile isSpace).reverse, ?_, ?_, ?_⟩
  · unfold strip
    rw [List.append_assoc, ← List.reverse_append, List.takeWhile_append_dropWhile, List.reverse_reverse,
      List.takeWhile_append_dropWhile]
  · intro x hx
    exact List.mem_takeWhile_imp hx
  · intro x hx
    exact List.mem_takeWhile_imp (List.mem_reverse.mp hx)

theorem splitWhitespace_append_spaces {m : Line} (l : Line) (h : ∀ b ∈ m, isSpace b = true) :
    splitWhitespace (l ++ m) = splitWhitespace l := by
  cases m with
  | nil => simp
  | cons b m =>
    have hm : splitWhitespace m = [] := splitWhitespace_of_spaces (fun x hx => h x (by simp [hx]))
    rw [splitWhitespace_append _ _ (h b (by simp)), hm, List.append_nil]

theorem splitWhitespace_spaces_append {m : Line} (l : Line) (h : ∀ b ∈ m, isSpace b = true) :
    splitWhitespace (m ++ l) = splitWhitespace l := by
  induction m with
  | nil => rfl
  | cons b m ih =>
    simp only [List.cons_append, splitWhitespace, h b (by simp), if_true]
    exact ih (fun b hb => h b (by simp [hb]))

/-- The strip makes no difference to the tokens: deleting the commas and splitting is the whole of it. -/
theorem normalise_eq (l : Line) : normalise l = splitWhitespace (deleteCommas l) := by
  obtain ⟨a, b, h, ha, hb⟩ := strip_spec l
  conv_rhs => rw [h]
  rw [deleteCommas_append, deleteCommas_append, splitWhitespace_append_spaces, splitWhitespace_spaces_append]
  · rfl
  · exact fun x hx => ha x (List.mem_of_mem_filter hx)
  · exact fun x hx => hb x (List.mem_of_mem_filter hx)

/-! ## Characters of tokens -/

theorem digit_facts : ∀ b : Byte, isDigit b = true ∨ b = ascii '-' →
    isOpen b = false ∧ isSpace b = false ∧ isComma b = false := by decide +kernel

theorem name_facts : ∀ b : Byte, isNameChar b = true →
    isOpen b = false ∧ isSpace b = false ∧ isComma b = false ∧ b ≠ ascii ')' := by decide +kernel

/-- `DIGIT+` and its value. -/
theorem parseDigits_eq_some_iff (t : Token) (n : Nat) :
    parseDigits t = some n ↔ t ≠ [] ∧ (∀ d ∈ t, isDigit d = true) ∧ n = decimalValue t := by
  unfold parseDigits
  split
  · rename_i h
    simp only [Bool.and_eq_true, Bool.not_eq_true', List.isEmpty_eq_false_iff, List.all_eq_true] at h
    simp only [Option.some.injEq]
    exact ⟨fun e => ⟨h.1, h.2, e.symm⟩, fun e => e.2.2.symm⟩
  · rename_i h
    simp only [Bool.and_eq_true, Bool.not_eq_true', List.isEmpty_eq_false_iff, List.all_eq_true] at h
    simp only [reduceCtorEq, false_iff]
    exact fun e => h ⟨e.1, e.2.1⟩

/-- An integer token is digits with at most a minus sign. -/
theorem chars_of_parseInt {t : Token} {v : Int} (h : parseInt t = some v) :
    t ≠ [] ∧ ∀ b ∈ t, isDigit b = true ∨ b = ascii '-' := by
  cases t with
  | nil => simp [parseInt] at h
  | cons b rest =>
    simp only [parseInt] at h
    split at h
    · rename_i hb
      simp only [beq_iff_eq] at hb
      subst hb
      obtain ⟨n, hn, -⟩ := Option.map_eq_some_iff.mp h
      rw [parseDigits_eq_some_iff] at hn
      refine ⟨by simp, fun x hx => ?_⟩
      rcases List.mem_cons.mp hx with rfl | hx
      · exact .inr rfl
      · exact .inl (hn.2.1 x hx)
    · obtain ⟨n, hn, -⟩ := Option.map_eq_some_iff.mp h
      rw [parseDigits_eq_some_iff] at hn
      exact ⟨by simp, fun x hx => .inl (hn.2.1 x hx)⟩

/-- The characters of a token before and from its first `(`. -/
theorem cut_at_open (n rest : Token) (h : ∀ b ∈ n, isOpen b = false) :
    (n ++ ascii '(' :: rest).takeWhile (fun b => !isOpen b) = n ∧
      (n ++ ascii '(' :: rest).dropWhile (fun b => !isOpen b) = ascii '(' :: rest := by
  have ho : isOpen (ascii '(') = true := by decide
  induction n with
  | nil => simp [ho]
  | cons a n ih =>
    have ih := ih (fun b hb => h b (by simp [hb]))
    have ha := h a (by simp)
    simp only [List.cons_append, List.takeWhile_cons, List.dropWhile_cons, ha, Bool.not_false, if_true]
    exact ⟨by rw [ih.1], ih.2⟩

/-- What a memory reference parses to. -/
theorem parseMem_of_parts (n base : Token) (h : ∀ b ∈ n, isOpen b = false) :
    parseMem (n ++ ascii '(' :: (base ++ [ascii ')'])) =
      if isName base then (parseInt n).map (fun v => (v, base)) else none := by
  unfold parseMem
  rw [(cut_at_open n _ h).2]
  simp only [(cut_at_open n _ h).1, List.dropLast_concat, List.getLast?_concat, beq_self_eq_true, Bool.true_and]

/-- The request the front end makes of a line carries the line's mnemonic and keeps its operands. -/
theorem request_of_parseOperands {cls : FormatClass} {mn : Token} {ops kept : List Token} {q : HwReq}
    (h : parseOperands cls mn ops = .request q kept) : q.mn = mn ∧ kept = ops := by
  unfold parseOperands at h
  cases cls <;> simp only [parseR, parseMemForm, parseIntForm] at h <;> (repeat' split at h) <;>
    simp only [reduceCtorEq, Parsed.request.injEq] at h <;> (obtain ⟨rfl, rfl⟩ := h; exact ⟨rfl, rfl⟩)

end Sys2Proof.Machine
end

