-- ==== Sys2Proof/Laws/Tables.lean ====
section
/-! SUPPORT. Lookups in a table instance, and what the invariant of R24 gives. -/

namespace Sys2Proof

theorem Mnemonic.instr_mnemonic (m : Mnemonic) (ops : Operands) : (m.instr ops).mnemonic = m := by cases m <;> rfl

theorem Mnemonic.instr_operands (m : Mnemonic) (ops : Operands) : (m.instr ops).operands = ops := by cases m <;> rfl

theorem Instr.eq_instr (i : Instr) : i.mnemonic.instr i.operands = i := by cases i <;> rfl

theorem Mnemonic.mem_all (m : Mnemonic) : m ∈ Mnemonic.all := by cases m <;> simp [Mnemonic.all]

/-- A token that spells a row's mnemonic is that mnemonic's key. -/
theorem Mnemonic.key_of_ofKey {t : Token} {m : Mnemonic} (h : Mnemonic.ofKey t = some m) : m.key = t := by
  simpa using List.find?_some h

/-- Every key spells its own mnemonic. -/
theorem Mnemonic.ofKey_key (m : Mnemonic) : Mnemonic.ofKey m.key = some m := by
  cases m <;> decide +kernel

/-- A table answers a key only with a row it holds. -/
theorem mem_of_lookup {α : Type} {table : List (Token × α)} {k : Token} {v : α} (h : lookup table k = some v) :
    (k, v) ∈ table := by
  unfold lookup at h
  obtain ⟨row, hrow, rfl⟩ := Option.map_eq_some_iff.mp h
  have hk : row.1 = k := by simpa using List.find?_some hrow
  simpa [← hk] using List.mem_of_find?_eq_some hrow

/-- A key with a row is answered. -/
theorem lookup_isSome_of_mem {α : Type} {table : List (Token × α)} {k : Token} {v : α} (h : (k, v) ∈ table) :
    (lookup table k).isSome = true := by
  unfold lookup
  simp only [Option.isSome_map, List.find?_isSome]
  exact ⟨(k, v), h, by simp⟩

/-- In a table whose keys are distinct, a row is what its key is answered with. -/
theorem lookup_of_mem {α : Type} {table : List (Token × α)} {k : Token} {v : α} (hd : keysDistinct table = true)
    (h : (k, v) ∈ table) : lookup table k = some v := by
  induction table with
  | nil => simp at h
  | cons row rest ih =>
    simp only [keysDistinct, Bool.and_eq_true, List.all_eq_true, bne_iff_ne] at hd
    rcases List.mem_cons.mp h with rfl | hmem
    · simp [lookup]
    · have hne : row.1 ≠ k := fun he => hd.1 _ hmem he.symm
      simpa [lookup, hne] using ih hd.2 hmem

/-- The class of a mnemonic's row is its class. -/
theorem Tables.classOf_of_rowOf {t : Tables} {mn : Token} {row : RowConstants} (h : t.rowOf mn = some row) :
    t.classOf mn = some row.cls := by
  simp only [rowOf, Option.bind_eq_bind, Option.bind_eq_some_iff] at h
  obtain ⟨cls, hc, hk⟩ := h
  cases cls <;>
    (simp only [constantsOf, Option.bind_eq_bind, Option.bind_eq_some_iff, Option.some.injEq] at hk
     rw [hc])
  · obtain ⟨_, _, _, _, _, _, rfl⟩ := hk; rfl
  all_goals obtain ⟨_, _, _, _, rfl⟩ := hk; rfl

/-- The invariant: a mnemonic with a class has the constants of that class, so the lookups after a successful
classification cannot fail (R24, R103). -/
theorem Tables.rowOf_isSome {t : Tables} (hwf : t.wf = true) {mn : Token} {cls : FormatClass}
    (h : t.classOf mn = some cls) : (t.rowOf mn).isSome = true := by
  have hmem := mem_of_lookup h
  simp only [Tables.wf, Bool.and_eq_true, List.all_eq_true] at hwf
  simpa [rowOf, h] using hwf.2 _ hmem

/-- Every configuration holds the source's rows (R61, R62). -/
theorem Config.rows_of_tierS (c : Config) :
    c.tables.rowOf (Mnemonic.key .add) = some (.R 0b0000000 0b000 0b0110011) ∧
    c.tables.rowOf (Mnemonic.key .addi) = some (.I 0b000 0b0010011) ∧
    c.tables.rowOf (Mnemonic.key .lw) = some (.I 0b010 0b0000011) ∧
    c.tables.classOf (Mnemonic.key .sw) = some .S ∧ c.tables.classOf (Mnemonic.key .beq) = some .SB := by
  simpa only [Tables.containsTierS, Bool.and_eq_true, beq_iff_eq, and_assoc] using c.tierS

/-- A mnemonic without a class has no row. -/
theorem Tables.rowOf_eq_none {t : Tables} {mn : Token} (h : t.classOf mn = none) : t.rowOf mn = none := by
  simp [rowOf, h]

/-- Under the invariant a mnemonic has no row exactly when it has no class. -/
theorem Config.rowOf_eq_none_iff (c : Config) (mn : Token) : c.tables.rowOf mn = none ↔ c.tables.classOf mn = none := by
  constructor
  · intro h
    cases hc : c.tables.classOf mn with
    | none => rfl
    | some cls => simpa [h] using Tables.rowOf_isSome c.wf hc
  · exact Tables.rowOf_eq_none

end Sys2Proof
end

