-- ==== Sys2Proof/Laws/Operands.lean ====
section
/-! SUPPORT. How operands resolve, case by case, and that the request of an instruction asks for that instruction
(`41_classifier_regdecoder.md` R104 to R108). -/

namespace Sys2Proof.Machine

theorem withReg_of_some {c : Config} {name : Token} {r : RegIndex} (h : c.tables.regOf name = some r) (slot : Slot)
    (next : RegIndex → BlockResult) : withReg c name slot next = next r := by simp [withReg, h]

theorem withReg_of_none {c : Config} {name : Token} (h : c.tables.regOf name = none) (slot : Slot)
    (next : RegIndex → BlockResult) : withReg c name slot next = .err .unknownRegister slot := by
  simp [withReg, h, raise]

theorem withImm_of_some {c : Config} {v : Int} {w : Nat} {b : BitVec w} (h : bin c.policy v w = some b)
    (next : BitVec w → BlockResult) : withImm c v w next = next b := by simp [withImm, h]

theorem withImm_of_none {c : Config} {v : Int} {w : Nat} (h : bin c.policy v w = none)
    (next : BitVec w → BlockResult) : withImm c v w next = .err .malformedOperand .imm := by simp [withImm, h, raise]

/-- A classified mnemonic has the row of its class. -/
theorem rowOf_of_classOf {c : Config} {mn : Token} {cls : FormatClass} (h : c.tables.classOf mn = some cls) :
    ∃ row, c.tables.rowOf mn = some row ∧ row.cls = cls := by
  obtain ⟨row, hr⟩ := Option.isSome_iff_exists.mp (Tables.rowOf_isSome c.wf h)
  have hc := Tables.classOf_of_rowOf hr
  rw [h] at hc
  exact ⟨row, hr, (Option.some.inj hc).symm⟩

/-- A register name that is known is a key. -/
theorem isKey_of_regOf {c : Config} {name : Token} {r : RegIndex} (h : c.tables.regOf name = some r) :
    isKey name = true := by
  have hwf := c.wf
  simp only [Tables.wf, Bool.and_eq_true, isMap, List.all_eq_true] at hwf
  exact hwf.1.2.1 _ (mem_of_lookup h)

theorem operandsOf_requestOf (mn : Token) (ops : Operands) : operandsOf (requestOf mn ops) = ops := by
  cases ops <;> rfl

theorem mn_requestOf (mn : Token) (ops : Operands) : (requestOf mn ops).mn = mn := by cases ops <;> rfl

/-- The request made of an instruction asks for that instruction. -/
theorem instrOf_requestOf (i : Instr) : instrOf (requestOf i.mnemonic.key i.operands) = some i := by
  simp [instrOf, mn_requestOf, operandsOf_requestOf, Mnemonic.ofKey_key, Instr.eq_instr]

end Sys2Proof.Machine
end

