-- ==== Sys2Proof/Laws/State.lean ====
section
/-! SUPPORT. One lemma per field per update of the state. -/

namespace Sys2Proof.Machine

variable (s : State) (r : BlockResult) (o : Output) (rest : List Input)

@[simp] theorem State.respond_cfg : (s.respond r).cfg = s.cfg := rfl
@[simp] theorem State.respond_inputs : (s.respond r).inputs = s.inputs := rfl
@[simp] theorem State.respond_resp : (s.respond r).resp = some r := rfl
@[simp] theorem State.respond_outputs : (s.respond r).outputs = s.outputs := rfl

@[simp] theorem State.idle_cfg : s.idle.cfg = s.cfg := rfl
@[simp] theorem State.idle_inputs : s.idle.inputs = s.inputs := rfl
@[simp] theorem State.idle_resp : s.idle.resp = none := rfl
@[simp] theorem State.idle_outputs : s.idle.outputs = s.outputs := rfl

@[simp] theorem State.emit_cfg : (s.emit o).cfg = s.cfg := rfl
@[simp] theorem State.emit_inputs : (s.emit o).inputs = s.inputs := rfl
@[simp] theorem State.emit_resp : (s.emit o).resp = s.resp := rfl
@[simp] theorem State.emit_outputs : (s.emit o).outputs = s.outputs ++ [o] := rfl

@[simp] theorem State.advance_cfg : (s.advance rest).cfg = s.cfg := rfl
@[simp] theorem State.advance_inputs : (s.advance rest).inputs = rest := rfl
@[simp] theorem State.advance_resp : (s.advance rest).resp = s.resp := rfl
@[simp] theorem State.advance_outputs : (s.advance rest).outputs = s.outputs := rfl

@[simp] theorem State.reset_cfg : State.reset.cfg = Config.defaultInstance := rfl
@[simp] theorem State.reset_inputs : State.reset.inputs = [] := rfl
@[simp] theorem State.reset_resp : State.reset.resp = none := rfl
@[simp] theorem State.reset_outputs : State.reset.outputs = [] := rfl

end Sys2Proof.Machine
end

