-- ==== Sys2Proof/Laws/Ops.lean ====
section
/-! SUPPORT. What each shared operation does, said once: an instruction, a request, an input and a step each have one
next state, and it is given here. -/

namespace Sys2Proof.Machine

/-- Every instruction presents the block's outcome for its mnemonic and operands, and changes nothing else. -/
theorem exec_eq (i : Instr) (s : State) :
    exec i s = .next (s.respond (encodeOperands s.cfg i.mnemonic.key i.operands)) := by
  cases i <;> rfl

/-- Running a request presents `encode_fields` of it. -/
theorem runRequest_eq (q : HwReq) (s : State) : runRequest q s = .next (s.respond (encodeFields s.cfg q)) := by
  unfold runRequest instrOf
  cases h : Mnemonic.ofKey q.mn with
  | none => rfl
  | some m =>
    simp only [Option.map_some, exec_eq, Mnemonic.instr_mnemonic, Mnemonic.instr_operands, Mnemonic.key_of_ofKey h]
    rfl

/-- After a run that presented an outcome, the host is handed the output made of it. -/
@[simp] theorem andEmit_respond (s : State) (r : BlockResult) (out : BlockResult → Output) :
    andEmit (.next (s.respond r)) out = .next ((s.respond r).emit (out r)) := rfl

/-- The state after an input has been evaluated. -/
def State.answered (s : State) (x : Input) : State := { s with resp := responseTo s.cfg x }.emit (outcome s.cfg x)

@[simp] theorem State.answered_cfg (s : State) (x : Input) : (s.answered x).cfg = s.cfg := rfl
@[simp] theorem State.answered_inputs (s : State) (x : Input) : (s.answered x).inputs = s.inputs := rfl
@[simp] theorem State.answered_resp (s : State) (x : Input) : (s.answered x).resp = responseTo s.cfg x := rfl
@[simp] theorem State.answered_outputs (s : State) (x : Input) :
    (s.answered x).outputs = s.outputs ++ [outcome s.cfg x] := rfl

theorem evaluateLine_eq (l : Line) (s : State) : evaluateLine l s = .next (s.answered (.line l)) := by
  simp only [evaluateLine, State.answered, outcome, responseTo, encodeInstruction]
  cases hf : frontEnd s.cfg l with
  | blank => rfl
  | fail kind token => rfl
  | request q ops => simp only [runRequest_eq, andEmit_respond]; rfl

theorem evaluateWires_eq (p : PortIn) (s : State) : evaluateWires p s = .next (s.answered (.wires p)) := by
  simp only [evaluateWires, State.answered, outcome, responseTo, rvEncoder]
  cases hv : p.reqValid with
  | false => rfl
  | true => simp only [if_true, runRequest_eq, andEmit_respond]; rfl

/-- Every input is answered, with its outcome and with nothing changed but the response wires. -/
theorem evaluate_eq (x : Input) (s : State) : evaluate x s = .next (s.answered x) := by
  cases x with
  | line l => exact evaluateLine_eq l s
  | request q => simp only [evaluate, evaluateRequest, runRequest_eq, andEmit_respond]; rfl
  | classify mn => rfl
  | wires p => exact evaluateWires_eq p s

/-- A step with an input pending takes it off and answers it. -/
theorem step_cons {s : State} {x : Input} {rest : List Input} (h : s.inputs = x :: rest) :
    step s = .next ((s.advance rest).answered x) := by
  simp only [step, h, evaluate_eq]

/-- A step with nothing pending only shows that no request is there. -/
theorem step_nil {s : State} (h : s.inputs = []) : step s = .next s.idle := by simp [step, h]

end Sys2Proof.Machine
end

