-- ==== Sys2Proof/Laws/PerInstr.lean ====
section
/-! SUPPORT. Statements made per instruction. `OpcodeRow`: the row of the opcode table is the one the five tables give
(`30_encoding.md` R67). -/

namespace Sys2Proof.Laws.OpcodeRow

/-- The constant bits of a row of constants, at the positions of R51. -/
def constantBits : RowConstants → Word
  | .R f7 f3 opc => place f7 25 ||| place f3 12 ||| place opc 0
  | .I f3 opc => place f3 12 ||| place opc 0
  | .S f3 opc => place f3 12 ||| place opc 0
  | .SB f3 opc => place f3 12 ||| place opc 0

/-- The instruction's row of the opcode table has the class and the constants of the default tables. -/
def Statement (i : Instr) : Prop :=
  ∃ r ∈ opcodeRows, r.mn = i.mnemonic ∧
    (Tables.defaultInstance.rowOf i.mnemonic.key).map (fun row => (row.cls, constantBits row)) = some (r.cls, r.pattern)

/-- The statement for a mnemonic, decided on the tables. -/
def check (m : Mnemonic) : Bool :=
  opcodeRows.any fun r => r.mn == m &&
    (Tables.defaultInstance.rowOf m.key).map (fun row => (row.cls, constantBits row)) == some (r.cls, r.pattern)

theorem check_all : Mnemonic.all.all check = true := by decide +kernel

theorem statement_of_mem (i : Instr) (h : i.mnemonic ∈ Mnemonic.all) : Statement i := by
  have hc := List.all_eq_true.mp check_all _ h
  obtain ⟨r, hr, hm⟩ := List.any_eq_true.mp hc
  rw [Bool.and_eq_true] at hm
  exact ⟨r, hr, by simpa using hm.1, by simpa using hm.2⟩

theorem add (ops : Operands) : Statement (.add ops) := statement_of_mem _ (by simp [Instr.mnemonic, Mnemonic.all])
theorem sub (ops : Operands) : Statement (.sub ops) := statement_of_mem _ (by simp [Instr.mnemonic, Mnemonic.all])
theorem sll (ops : Operands) : Statement (.sll ops) := statement_of_mem _ (by simp [Instr.mnemonic, Mnemonic.all])
theorem slt (ops : Operands) : Statement (.slt ops) := statement_of_mem _ (by simp [Instr.mnemonic, Mnemonic.all])
theorem sltu (ops : Operands) : Statement (.sltu ops) := statement_of_mem _ (by simp [Instr.mnemonic, Mnemonic.all])
theorem xor (ops : Operands) : Statement (.xor ops) := statement_of_mem _ (by simp [Instr.mnemonic, Mnemonic.all])
theorem srl (ops : Operands) : Statement (.srl ops) := statement_of_mem _ (by simp [Instr.mnemonic, Mnemonic.all])
theorem sra (ops : Operands) : Statement (.sra ops) := statement_of_mem _ (by simp [Instr.mnemonic, Mnemonic.all])
theorem or (ops : Operands) : Statement (.or ops) := statement_of_mem _ (by simp [Instr.mnemonic, Mnemonic.all])
theorem and (ops : Operands) : Statement (.and ops) := statement_of_mem _ (by simp [Instr.mnemonic, Mnemonic.all])
theorem addi (ops : Operands) : Statement (.addi ops) := statement_of_mem _ (by simp [Instr.mnemonic, Mnemonic.all])
theorem slti (ops : Operands) : Statement (.slti ops) := statement_of_mem _ (by simp [Instr.mnemonic, Mnemonic.all])
theorem sltiu (ops : Operands) : Statement (.sltiu ops) := statement_of_mem _ (by simp [Instr.mnemonic, Mnemonic.all])
theorem xori (ops : Operands) : Statement (.xori ops) := statement_of_mem _ (by simp [Instr.mnemonic, Mnemonic.all])
theorem ori (ops : Operands) : Statement (.ori ops) := statement_of_mem _ (by simp [Instr.mnemonic, Mnemonic.all])
theorem andi (ops : Operands) : Statement (.andi ops) := statement_of_mem _ (by simp [Instr.mnemonic, Mnemonic.all])
theorem lb (ops : Operands) : Statement (.lb ops) := statement_of_mem _ (by simp [Instr.mnemonic, Mnemonic.all])
theorem lh (ops : Operands) : Statement (.lh ops) := statement_of_mem _ (by simp [Instr.mnemonic, Mnemonic.all])
theorem lw (ops : Operands) : Statement (.lw ops) := statement_of_mem _ (by simp [Instr.mnemonic, Mnemonic.all])
theorem lbu (ops : Operands) : Statement (.lbu ops) := statement_of_mem _ (by simp [Instr.mnemonic, Mnemonic.all])
theorem lhu (ops : Operands) : Statement (.lhu ops) := statement_of_mem _ (by simp [Instr.mnemonic, Mnemonic.all])
theorem sb (ops : Operands) : Statement (.sb ops) := statement_of_mem _ (by simp [Instr.mnemonic, Mnemonic.all])
theorem sh (ops : Operands) : Statement (.sh ops) := statement_of_mem _ (by simp [Instr.mnemonic, Mnemonic.all])
theorem sw (ops : Operands) : Statement (.sw ops) := statement_of_mem _ (by simp [Instr.mnemonic, Mnemonic.all])
theorem beq (ops : Operands) : Statement (.beq ops) := statement_of_mem _ (by simp [Instr.mnemonic, Mnemonic.all])
theorem bne (ops : Operands) : Statement (.bne ops) := statement_of_mem _ (by simp [Instr.mnemonic, Mnemonic.all])
theorem blt (ops : Operands) : Statement (.blt ops) := statement_of_mem _ (by simp [Instr.mnemonic, Mnemonic.all])
theorem bge (ops : Operands) : Statement (.bge ops) := statement_of_mem _ (by simp [Instr.mnemonic, Mnemonic.all])
theorem bltu (ops : Operands) : Statement (.bltu ops) := statement_of_mem _ (by simp [Instr.mnemonic, Mnemonic.all])
theorem bgeu (ops : Operands) : Statement (.bgeu ops) := statement_of_mem _ (by simp [Instr.mnemonic, Mnemonic.all])

end Sys2Proof.Laws.OpcodeRow
end

