-- ==== Sys2Proof/Laws/Packers.lean ====
section
/-! SUPPORT. Each packer's word is the constant bits of its row with the operand fields laid in: the concatenations of
`30_encoding.md` R52 to R55 against the bit positions of R51. -/

namespace Sys2Proof.Machine

open Sys2Proof.Laws.OpcodeRow

theorem packR_eq_or (f7 opc : BitVec 7) (f3 : BitVec 3) (rd rs1 rs2 : RegIndex) :
    packR f7 rs2 rs1 f3 rd opc = constantBits (.R f7 f3 opc) ||| placeR rd rs1 rs2 := by
  apply BitVec.eq_of_getLsbD_eq
  intro i hi
  simp only [packR, constantBits, placeR, place, BitVec.getLsbD_append, BitVec.getLsbD_or, BitVec.getLsbD_shiftLeft,
    BitVec.getLsbD_setWidth]
  interval_cases i <;> simp

theorem packI_eq_or (i12 : BitVec 12) (opc : BitVec 7) (f3 : BitVec 3) (rd rs1 : RegIndex) :
    packI i12 rs1 f3 rd opc = constantBits (.I f3 opc) ||| placeI rd rs1 i12 := by
  apply BitVec.eq_of_getLsbD_eq
  intro i hi
  simp only [packI, constantBits, placeI, place, BitVec.getLsbD_append, BitVec.getLsbD_or, BitVec.getLsbD_shiftLeft,
    BitVec.getLsbD_setWidth]
  interval_cases i <;> simp

theorem packS_eq_or (i12 : BitVec 12) (opc : BitVec 7) (f3 : BitVec 3) (rs1 rs2 : RegIndex) :
    packS i12 rs2 rs1 f3 opc = constantBits (.S f3 opc) ||| placeS rs1 rs2 i12 := by
  apply BitVec.eq_of_getLsbD_eq
  intro i hi
  simp only [packS, constantBits, placeS, place, BitVec.getLsbD_append, BitVec.getLsbD_or, BitVec.getLsbD_shiftLeft,
    BitVec.getLsbD_setWidth, BitVec.getLsbD_extractLsb']
  interval_cases i <;> simp

theorem packSB_eq_or (i13 : BitVec 13) (opc : BitVec 7) (f3 : BitVec 3) (rs1 rs2 : RegIndex) :
    packSB i13 rs2 rs1 f3 opc = constantBits (.SB f3 opc) ||| placeSB rs1 rs2 i13 := by
  apply BitVec.eq_of_getLsbD_eq
  intro i hi
  simp only [packSB, constantBits, placeSB, place, BitVec.getLsbD_append, BitVec.getLsbD_or, BitVec.getLsbD_shiftLeft,
    BitVec.getLsbD_setWidth, BitVec.getLsbD_extractLsb']
  interval_cases i <;> simp

end Sys2Proof.Machine
end

