-- ==== Sys2Proof/Laws/Ports.lean ====
section
/-! SUPPORT. A key put on a port is read back, and what cannot be put there is read back as no key (`10_state.md`
R33). -/

namespace Sys2Proof.Machine

/-- The tokens a key port carries as they are. -/
def fitsKeyPort (t : Token) : Bool := !t.isEmpty && t.length ≤ keyBytes && t.all (fun b => b != 0)

theorem splitBytes_joinBytes_eight (b0 b1 b2 b3 b4 b5 b6 b7 : Byte) :
    splitBytes (joinBytes [b0, b1, b2, b3, b4, b5, b6, b7]) = [b0, b1, b2, b3, b4, b5, b6, b7] := by
  simp only [splitBytes, joinBytes, keyBytes, List.range, List.range.loop, List.map, List.foldl, List.cons.injEq,
    and_true]
  refine ⟨?_, ?_, ?_, ?_, ?_, ?_, ?_, ?_⟩ <;>
  · apply BitVec.eq_of_getLsbD_eq
    intro i hi
    simp only [BitVec.getLsbD_extractLsb', BitVec.getLsbD_or, BitVec.getLsbD_shiftLeft, BitVec.getLsbD_setWidth]
    interval_cases i <;> simp

/-- Eight characters joined and split again are themselves. -/
theorem splitBytes_joinBytes {t : Token} (h : t.length = 8) : splitBytes (joinBytes t) = t := by
  rcases t with _ | ⟨b0, _ | ⟨b1, _ | ⟨b2, _ | ⟨b3, _ | ⟨b4, _ | ⟨b5, _ | ⟨b6, _ | ⟨b7, _ | ⟨b8, r⟩⟩⟩⟩⟩⟩⟩⟩⟩ <;>
    simp at h
  exact splitBytes_joinBytes_eight ..

theorem dropWhile_zeros {t : Token} (h : ∀ b ∈ t, b ≠ 0) (n : Nat) :
    (List.replicate n (0 : Byte) ++ t).dropWhile (fun b => b == 0) = t := by
  induction n with
  | zero =>
    cases t with
    | nil => rfl
    | cons a r => simpa [List.dropWhile_cons] using fun h0 => absurd h0 (h a (by simp))
  | succ n ih => rw [List.replicate_succ, List.cons_append, List.dropWhile_cons, if_pos (by rfl), ih]

/-- A token a port carries is read back. -/
theorem unpackKey_packKey {t : Token} (h : fitsKeyPort t = true) : unpackKey (packKey t) = t := by
  have e : packKey t = joinBytes (t ++ List.replicate (keyBytes - t.length) 0) := if_pos h
  simp only [fitsKeyPort, Bool.and_eq_true, List.all_eq_true, bne_iff_ne] at h
  have h8 : t.length ≤ 8 := of_decide_eq_true h.1.2
  have hl : (t ++ List.replicate (8 - t.length) (0 : Byte)).length = 8 := by simp; omega
  rw [e, unpackKey, keyBytes, splitBytes_joinBytes hl, List.reverse_append, List.reverse_replicate,
    dropWhile_zeros (fun b hb => h.2 b (List.mem_reverse.mp hb)), List.reverse_reverse]

/-- The other tokens leave all ones on the port. -/
theorem packKey_of_not_fits {t : Token} (h : fitsKeyPort t = false) : packKey t = BitVec.allOnes 64 :=
  if_neg (by simpa [fitsKeyPort] using h)

/-- All ones carry no key. -/
theorem isKey_unpackKey_allOnes : isKey (unpackKey (BitVec.allOnes 64)) = false := by decide +kernel

theorem nameChar_ne_zero : ∀ b : Byte, isNameChar b = true → (b != 0) = true := by decide +kernel

/-- A table key fits a port. -/
theorem fitsKeyPort_of_isKey {t : Token} (h : isKey t = true) : fitsKeyPort t = true := by
  simp only [isKey, Bool.and_eq_true, List.all_eq_true] at h
  simp only [fitsKeyPort, Bool.and_eq_true, List.all_eq_true]
  exact ⟨h.1, fun b hb => nameChar_ne_zero b (h.2 b hb)⟩

theorem formOfCode_formCode (f : Form) : formOfCode (formCode f) = f := by cases f <;> rfl

end Sys2Proof.Machine
end

