-- ==== Sys2Proof/Tests/Slice0.lean ====
section
/-! SUPPORT. Tests of the model against the spec's worked examples (`spec/95_test_vectors.md` unless said otherwise), and
for each obligation with hypotheses concrete values that meet them. -/

namespace Sys2Proof.Tests.Slice0

set_option Elab.async false

open Sys2Proof Sys2Proof.Machine

/-! ## Helpers -/

/-- The machine after reset with one input presented. -/
def ask (c : Config) (x : Input) : State := { State.reset with cfg := c, inputs := [x] }

/-- One step on one input hands back this outcome. -/
def answersWith (c : Config) (x : Input) (o : Output) : Bool := match step (ask c x) with
  | .next t => t.outputs == [o] && t.inputs.isEmpty
  | .fault _ => false
  | .refused _ => false

/-- A line has a word in the default instance. -/
def lineGives (l : List Char) (w : Word) : Bool :=
  answersWith .defaultInstance (.line (tok l)) (.text (.ok (bitString w)))

/-- A line fails with this kind and token. -/
def lineFails (c : Config) (l : List Char) (k : ErrorKind) (t : List Char) : Bool :=
  answersWith c (.line (tok l)) (.text (.err ⟨k, tok t, tok l⟩))

/-- A request's outcome at the block's boundary. -/
def blockGives (c : Config) (mn : List Char) (f : Form) (r0 r1 r2 : List Char) (imm : Int) (r : BlockResult) : Bool :=
  answersWith c (.request ⟨tok mn, f, tok r0, tok r1, tok r2, imm⟩) (.block r)

/-- A word decodes to an instruction. -/
def decodesTo (w : Word) (i : Instr) : Bool := match decodeWord w with
  | .ok j => i == j
  | .error _ => false

/-! ## Well-formed instructions: one ill-formed term for each check -/

theorem test_wf_accepts : Instr.wellFormed .defaultInstance
    (.lw (.rm (tok ['x', '1', '0']) (tok ['s', 'p']) (-4096))) = true := by decide +kernel

/-- Three registers for a class-S mnemonic. -/
theorem test_wf_refuses_form :
    Instr.formOk .defaultInstance (.sw (.rrr (tok ['x', '1']) (tok ['x', '2']) (tok ['x', '3']))) = false ∧
    Instr.wellFormed .defaultInstance (.sw (.rrr (tok ['x', '1']) (tok ['x', '2']) (tok ['x', '3']))) = false := by
  decide +kernel

/-- `x32` is no register. -/
theorem test_wf_refuses_name :
    Instr.namesOk .defaultInstance (.add (.rrr (tok ['x', '1']) (tok ['x', '2']) (tok ['x', '3', '2']))) = false ∧
    Instr.wellFormed .defaultInstance (.add (.rrr (tok ['x', '1']) (tok ['x', '2']) (tok ['x', '3', '2']))) = false := by
  decide +kernel

/-- 4096 does not fit under `error`; 8192 is one too many for a branch. -/
theorem test_wf_refuses_imm :
    Instr.immOk .defaultInstance (.addi (.rri (tok ['x', '1']) (tok ['x', '0']) 4096)) = false ∧
    Instr.immOk .truncating (.addi (.rri (tok ['x', '1']) (tok ['x', '0']) 4096)) = true ∧
    Instr.wellFormed .defaultInstance (.beq (.rri (tok ['x', '1']) (tok ['x', '2']) 8192)) = false := by decide +kernel

/-! ## Tables (R24, R27, R61) -/

/-- A class-R mnemonic without a funct7 makes no configuration. -/
theorem test_tables_without_funct7 :
    Config.ofTables { Tables.defaultInstance with f7 := [] } .error = none := by decide +kernel

/-- Nor does a table with a key twice, or a key of nine characters. -/
theorem test_tables_bad_keys :
    Config.ofTables { Tables.defaultInstance with reg := [(tok ['x', '1'], 1), (tok ['x', '1'], 2)] } .error = none ∧
    Config.ofTables { Tables.defaultInstance with
      reg := [(tok ['r', 'e', 'g', 'i', 's', 't', 'e', 'r', '1'], 1)] } .error = none := by decide +kernel

/-- No instance without Tier S (R61): empty tables, the default ones without `beq`, and ones with another opcode for
`lw`. -/
theorem test_tables_without_tierS :
    Config.ofTables ⟨[], [], [], [], []⟩ .error = none ∧
    Config.ofTables (.ofRows (defaultRows.filter (fun r => r.mn != Mnemonic.key .beq)) numericNames) .error = none ∧
    Config.ofTables { Tables.defaultInstance with
      opc := Tables.defaultInstance.opc.map (fun r => if r.1 == Mnemonic.key .lw then (r.1, 0b0000111#7) else r) } .error
      = none := by decide +kernel

/-- Another instance that contains Tier S: the five rows and `jalr` (R68). -/
theorem test_tables_tierS_and_more :
    (Config.ofTables (.ofRows (tierSRows ++ [⟨tok ['j', 'a', 'l', 'r'], .I, 0b1100111#7, 0b000#3, none⟩]) numericNames)
      .truncate).isSome = true := by decide +kernel

theorem test_tables_default_accepted : Config.ofTables .defaultInstance .error = some .defaultInstance := by
  decide +kernel

/-- Program 5: the restricted tables know neither `sub` nor `sp`. -/
theorem test_source_only :
    lineFails .sourceOnly ['s', 'u', 'b', ' ', 'x', '1', ',', ' ', 'x', '2', ',', ' ', 'x', '3']
      .unknownMnemonic ['s', 'u', 'b'] = true ∧
    lineFails .sourceOnly ['l', 'w', ' ', 'x', '1', '0', ',', ' ', '8', '(', 's', 'p', ')']
      .unknownRegister ['s', 'p'] = true := by decide +kernel

/-! ## The formatter (section 2) -/

theorem test_bin_edges :
    bin .error 4095 12 = some 0b111111111111#12 ∧ bin .error (-4096) 12 = some 0b000000000000#12 ∧
    bin .error 4096 12 = none ∧ bin .truncate (-4097) 12 = some 0b111111111111#12 ∧
    bin .error (-2049) 12 = some 0b011111111111#12 ∧ bin .error (-8193) 13 = none := by decide +kernel

/-! ## The front end (sections 8 and 9) -/

/-- `"\tadd\tx1,\tx2,\tx3\r\n"`, and the commas of `add x1,x2,x3` that join its operands. -/
theorem test_normalise :
    normalise (tok ['\t', 'a', 'd', 'd', '\t', 'x', '1', ',', '\t', 'x', '2', ',', '\t', 'x', '3', '\r', '\n']) =
      [tok ['a', 'd', 'd'], tok ['x', '1'], tok ['x', '2'], tok ['x', '3']] ∧
    normalise (tok ['a', 'd', 'd', ' ', 'x', '1', ',', 'x', '2', ',', 'x', '3']) =
      [tok ['a', 'd', 'd'], tok ['x', '1', 'x', '2', 'x', '3']] := by decide +kernel

/-- A line of commas and spaces is blank: an empty output line and no request (R86). -/
theorem test_blank_line :
    answersWith .defaultInstance (.line (tok [' ', ',', '\t', ','])) (.text (.ok [])) = true := by decide +kernel

theorem test_parse_int :
    parseInt (tok ['0', '0', '7']) = some 7 ∧ parseInt (tok ['-', '4']) = some (-4) ∧ parseInt (tok ['+', '5']) = none ∧
    parseInt (tok ['0', 'x', '1', '0']) = none ∧ parseInt (tok ['-']) = none ∧ parseInt [] = none := by decide +kernel

theorem test_parse_mem :
    parseMem (tok ['-', '4', '(', 'x', '5', ')']) = some (-4, tok ['x', '5']) ∧
    parseMem (tok ['(', 'x', '2', ')']) = none ∧ parseMem (tok ['8', '(', 'x', '2']) = none ∧
    parseMem (tok ['8', '(', 'x', '2', ')', 'x']) = none ∧ parseMem (tok ['8', '(', ')']) = none ∧
    parseMem (tok ['8', '(', 'x', '-', '1', ')']) = none := by decide +kernel

/-- `foo x99, 8(`, `add x99, x2`, `sw x99, foo`. -/
theorem test_error_priority_front :
    lineFails .defaultInstance ['f', 'o', 'o', ' ', 'x', '9', '9', ',', ' ', '8', '('] .unknownMnemonic
      ['f', 'o', 'o'] = true ∧
    lineFails .defaultInstance ['a', 'd', 'd', ' ', 'x', '9', '9', ',', ' ', 'x', '2'] .malformedOperand [] = true ∧
    lineFails .defaultInstance ['s', 'w', ' ', 'x', '9', '9', ',', ' ', 'f', 'o', 'o'] .malformedOperand
      ['f', 'o', 'o'] = true := by decide +kernel

/-- `lw x99, 8(x98)`, `addi x99, x0, 5000`, `sw x3, 5000(x99)`. -/
theorem test_error_priority_block :
    lineFails .defaultInstance ['l', 'w', ' ', 'x', '9', '9', ',', ' ', '8', '(', 'x', '9', '8', ')'] .unknownRegister
      ['x', '9', '9'] = true ∧
    lineFails .defaultInstance ['a', 'd', 'd', 'i', ' ', 'x', '9', '9', ',', ' ', 'x', '0', ',', ' ', '5', '0', '0', '0']
      .unknownRegister ['x', '9', '9'] = true ∧
    lineFails .defaultInstance ['s', 'w', ' ', 'x', '3', ',', ' ', '5', '0', '0', '0', '(', 'x', '9', '9', ')']
      .unknownRegister ['x', '9', '9'] = true := by decide +kernel

/-- Program 4a, line 7: the token of an offset out of range is the whole memory reference. -/
theorem test_error_token_of_offset :
    lineFails .defaultInstance ['s', 'w', ' ', 'x', '1', ',', ' ', '4', '0', '9', '6', '(', 'x', '2', ')']
      .malformedOperand ['4', '0', '9', '6', '(', 'x', '2', ')'] = true := by decide +kernel

/-! ## The block's boundary (section 9.1) -/

theorem test_block_forms :
    blockGives .defaultInstance ['l', 'w'] .rri ['x', '1', '0'] ['x', '2'] [] 8 (.ok 0x00812503) = true ∧
    blockGives .defaultInstance ['l', 'w'] .rrr ['x', '1', '0'] ['x', '2'] ['x', '3'] 0
      (.err .malformedOperand .form) = true ∧
    blockGives .defaultInstance ['b', 'e', 'q'] .rm ['x', '1'] ['x', '2'] [] 8
      (.err .malformedOperand .form) = true := by decide +kernel

theorem test_block_order :
    blockGives .defaultInstance ['f', 'o', 'o'] .rm ['x', '9', '9'] ['x', '9', '8'] [] 99999
      (.err .unknownMnemonic .mn) = true ∧
    blockGives .defaultInstance ['a', 'd', 'd'] .rri ['x', '9', '9'] ['x', '2'] [] 0
      (.err .malformedOperand .form) = true ∧
    blockGives .defaultInstance ['a', 'd', 'd'] .rrr ['x', '1'] ['x', '9', '8'] ['x', '9', '9'] 0
      (.err .unknownRegister .r1) = true := by decide +kernel

theorem test_block_policy :
    blockGives .defaultInstance ['a', 'd', 'd', 'i'] .rri ['x', '1'] ['x', '0'] [] 5000
      (.err .malformedOperand .imm) = true ∧
    blockGives .truncating ['a', 'd', 'd', 'i'] .rri ['x', '1'] ['x', '0'] [] 5000 (.ok 0x38800093) = true ∧
    blockGives .defaultInstance ['a', 'd', 'd', 'i'] .rri ['x', '1'] ['x', '0'] ['x', '9', '9'] 1
      (.ok 0x00100093) = true := by decide +kernel

theorem test_classifier :
    answersWith .defaultInstance (.classify (tok ['s', 'w'])) (.classified (some .S)) = true ∧
    answersWith .defaultInstance (.classify (tok ['A', 'D', 'D'])) (.classified none) = true := by decide +kernel

/-! ## The ports (`10_state.md` R33) -/

/-- `lw` stands in bits 63 to 48 with zeros below; nine characters and the empty token leave all ones. -/
theorem test_key_port :
    packKey (tok ['l', 'w']) = 0x6C77000000000000 ∧
    packKey (tok ['r', 'e', 'g', 'i', 's', 't', 'e', 'r', '1']) = 0xFFFFFFFFFFFFFFFF ∧
    packKey [] = 0xFFFFFFFFFFFFFFFF := by decide +kernel

/-- `sw x3, -4(x5)` on the ports: hit, class S, status 0 and the word. -/
theorem test_port_word :
    (rvEncoder .defaultInstance ⟨true, 0x7377000000000000, 2, 0x7833000000000000, 0x7835000000000000, 0, 0xFFFFFFFC⟩).word
      = 0xFE32AE23 ∧
    (rvEncoder .defaultInstance ⟨true, 0x7377000000000000, 2, 0x7833000000000000, 0x7835000000000000, 0, 0xFFFFFFFC⟩).cls
      = 2 := by decide +kernel

/-- With `req_valid = 0` the classifier's outputs stay. -/
theorem test_port_idle :
    (rvEncoder .defaultInstance ⟨false, 0x7377000000000000, 2, 0, 0, 0, 0⟩).respValid = false ∧
    (rvEncoder .defaultInstance ⟨false, 0x7377000000000000, 2, 0, 0, 0, 0⟩).mnHit = true := by decide +kernel

/-! ## The shell and the word's bytes -/

/-- A word and a blank line give 32 characters, a newline and a newline (R201). -/
theorem test_output_file :
    shellRun .defaultInstance [tok ['a', 'd', 'd', ' ', 'x', '1', ' ', 'x', '2', ' ', 'x', '3'], []] =
      bitString 0x003100B3#32 ++ [newline, newline] := by decide +kernel

/-- The bytes of `0x00112233` in the two orders a consumer may take (R41). -/
theorem test_stored_bytes :
    storedBytes .leastSignificantFirst 0x00112233 = [0x33, 0x22, 0x11, 0x00] ∧
    storedBytes .mostSignificantFirst 0x00112233 = [0x00, 0x11, 0x22, 0x33] := by decide +kernel

/-! ## The decoder's rejections -/

/-- All zeros, and `mul x1, x2, x3`, whose funct7 is no row's. -/
theorem test_decode_rejects :
    decodeTableWord 32 0 = none ∧ decodeTableWord 32 0x023100B3 = none ∧ decodeTableWord 32 0x100000033 = none := by
  decide +kernel

/-- The first step after reset runs the word put where the machine takes its next instruction. -/
theorem test_fetch_word : (match step (State.reset.withFetchWord 32 0x003100B3) with
    | .next t => t.outputs == [.block (.ok 0x003100B3)]
    | .fault _ => false
    | .refused _ => false) = true := by decide +kernel

/-! ## The instructions: a word decoded, and a line encoded by one step -/

/-- `add x1, x2, x3`. -/
theorem test_add_word : decodesTo 0b0000000_00011_00010_000_00001_0110011
    (.add (.rrr (tok ['x', '1']) (tok ['x', '2']) (tok ['x', '3']))) = true := by
  decide +kernel

/-- `add zero, t6, s11`. -/
theorem test_add_line : lineGives ['a', 'd', 'd', ' ', 'z', 'e', 'r', 'o', ',', ' ', 't', '6', ',', ' ', 's', '1', '1']
    0b0000000_11011_11111_000_00000_0110011 = true := by
  decide +kernel

/-- `sub x5, x6, x7`. -/
theorem test_sub_word : decodesTo 0b0100000_00111_00110_000_00101_0110011
    (.sub (.rrr (tok ['x', '5']) (tok ['x', '6']) (tok ['x', '7']))) = true := by
  decide +kernel

/-- `sub x9, x9, x5`. -/
theorem test_sub_line : lineGives ['s', 'u', 'b', ' ', 'x', '9', ',', ' ', 'x', '9', ',', ' ', 'x', '5']
    0b0100000_00101_01001_000_01001_0110011 = true := by
  decide +kernel

/-- `sll x8, x9, x10`. -/
theorem test_sll_word : decodesTo 0b0000000_01010_01001_001_01000_0110011
    (.sll (.rrr (tok ['x', '8']) (tok ['x', '9']) (tok ['x', '1', '0']))) = true := by
  decide +kernel

/-- `sll x8, x9, x10`. -/
theorem test_sll_line : lineGives ['s', 'l', 'l', ' ', 'x', '8', ',', ' ', 'x', '9', ',', ' ', 'x', '1', '0']
    0b0000000_01010_01001_001_01000_0110011 = true := by
  decide +kernel

/-- `slt x11, x12, x13`. -/
theorem test_slt_word : decodesTo 0b0000000_01101_01100_010_01011_0110011
    (.slt (.rrr (tok ['x', '1', '1']) (tok ['x', '1', '2']) (tok ['x', '1', '3']))) = true := by
  decide +kernel

/-- `slt x11, x12, x13`. -/
theorem test_slt_line : lineGives ['s', 'l', 't', ' ', 'x', '1', '1', ',', ' ', 'x', '1', '2', ',', ' ', 'x', '1', '3']
    0b0000000_01101_01100_010_01011_0110011 = true := by
  decide +kernel

/-- `sltu x14, x15, x16`. -/
theorem test_sltu_word : decodesTo 0b0000000_10000_01111_011_01110_0110011
    (.sltu (.rrr (tok ['x', '1', '4']) (tok ['x', '1', '5']) (tok ['x', '1', '6']))) = true := by
  decide +kernel

/-- `sltu x14, x15, x16`. -/
theorem test_sltu_line : lineGives ['s', 'l', 't', 'u', ' ', 'x', '1', '4', ',', ' ', 'x', '1', '5', ',', ' ', 'x', '1', '6']
    0b0000000_10000_01111_011_01110_0110011 = true := by
  decide +kernel

/-- `xor x17, x18, x19`. -/
theorem test_xor_word : decodesTo 0b0000000_10011_10010_100_10001_0110011
    (.xor (.rrr (tok ['x', '1', '7']) (tok ['x', '1', '8']) (tok ['x', '1', '9']))) = true := by
  decide +kernel

/-- `xor x7, x5, x6`. -/
theorem test_xor_line : lineGives ['x', 'o', 'r', ' ', 'x', '7', ',', ' ', 'x', '5', ',', ' ', 'x', '6']
    0b0000000_00110_00101_100_00111_0110011 = true := by
  decide +kernel

/-- `srl x20, x21, x22`. -/
theorem test_srl_word : decodesTo 0b0000000_10110_10101_101_10100_0110011
    (.srl (.rrr (tok ['x', '2', '0']) (tok ['x', '2', '1']) (tok ['x', '2', '2']))) = true := by
  decide +kernel

/-- `srl x20, x21, x22`. -/
theorem test_srl_line : lineGives ['s', 'r', 'l', ' ', 'x', '2', '0', ',', ' ', 'x', '2', '1', ',', ' ', 'x', '2', '2']
    0b0000000_10110_10101_101_10100_0110011 = true := by
  decide +kernel

/-- `sra x23, x24, x25`. -/
theorem test_sra_word : decodesTo 0b0100000_11001_11000_101_10111_0110011
    (.sra (.rrr (tok ['x', '2', '3']) (tok ['x', '2', '4']) (tok ['x', '2', '5']))) = true := by
  decide +kernel

/-- `sra x9, x8, x7`. -/
theorem test_sra_line : lineGives ['s', 'r', 'a', ' ', 'x', '9', ',', ' ', 'x', '8', ',', ' ', 'x', '7']
    0b0100000_00111_01000_101_01001_0110011 = true := by
  decide +kernel

/-- `or x26, x27, x28`. -/
theorem test_or_word : decodesTo 0b0000000_11100_11011_110_11010_0110011
    (.or (.rrr (tok ['x', '2', '6']) (tok ['x', '2', '7']) (tok ['x', '2', '8']))) = true := by
  decide +kernel

/-- `or x8, x5, x6`. -/
theorem test_or_line : lineGives ['o', 'r', ' ', 'x', '8', ',', ' ', 'x', '5', ',', ' ', 'x', '6']
    0b0000000_00110_00101_110_01000_0110011 = true := by
  decide +kernel

/-- `and x29, x30, x31`. -/
theorem test_and_word : decodesTo 0b0000000_11111_11110_111_11101_0110011
    (.and (.rrr (tok ['x', '2', '9']) (tok ['x', '3', '0']) (tok ['x', '3', '1']))) = true := by
  decide +kernel

/-- `and x29, x30, x31`. -/
theorem test_and_line : lineGives ['a', 'n', 'd', ' ', 'x', '2', '9', ',', ' ', 'x', '3', '0', ',', ' ', 'x', '3', '1']
    0b0000000_11111_11110_111_11101_0110011 = true := by
  decide +kernel

/-- `addi x5, x0, -1`. -/
theorem test_addi_word : decodesTo 0b111111111111_00000_000_00101_0010011
    (.addi (.rri (tok ['x', '5']) (tok ['x', '0']) (-1))) = true := by
  decide +kernel

/-- `addi x5, 8(x2)`. -/
theorem test_addi_line : lineGives ['a', 'd', 'd', 'i', ' ', 'x', '5', ',', ' ', '8', '(', 'x', '2', ')']
    0b000000001000_00010_000_00101_0010011 = true := by
  decide +kernel

/-- `slti x6, x7, -5`. -/
theorem test_slti_word : decodesTo 0b111111111011_00111_010_00110_0010011
    (.slti (.rri (tok ['x', '6']) (tok ['x', '7']) (-5))) = true := by
  decide +kernel

/-- `slti x6, x7, -5`. -/
theorem test_slti_line : lineGives ['s', 'l', 't', 'i', ' ', 'x', '6', ',', ' ', 'x', '7', ',', ' ', '-', '5']
    0b111111111011_00111_010_00110_0010011 = true := by
  decide +kernel

/-- `sltiu x8, x9, 1`. -/
theorem test_sltiu_word : decodesTo 0b000000000001_01001_011_01000_0010011
    (.sltiu (.rri (tok ['x', '8']) (tok ['x', '9']) (1))) = true := by
  decide +kernel

/-- `sltiu x7, x7, 1`. -/
theorem test_sltiu_line : lineGives ['s', 'l', 't', 'i', 'u', ' ', 'x', '7', ',', ' ', 'x', '7', ',', ' ', '1']
    0b000000000001_00111_011_00111_0010011 = true := by
  decide +kernel

/-- `xori x10, x11, -1`. -/
theorem test_xori_word : decodesTo 0b111111111111_01011_100_01010_0010011
    (.xori (.rri (tok ['x', '1', '0']) (tok ['x', '1', '1']) (-1))) = true := by
  decide +kernel

/-- `xori x10, x11, -1`. -/
theorem test_xori_line : lineGives ['x', 'o', 'r', 'i', ' ', 'x', '1', '0', ',', ' ', 'x', '1', '1', ',', ' ', '-', '1']
    0b111111111111_01011_100_01010_0010011 = true := by
  decide +kernel

/-- `ori x12, x13, 255`. -/
theorem test_ori_word : decodesTo 0b000011111111_01101_110_01100_0010011
    (.ori (.rri (tok ['x', '1', '2']) (tok ['x', '1', '3']) (255))) = true := by
  decide +kernel

/-- `ori x12, x13, 255`. -/
theorem test_ori_line : lineGives ['o', 'r', 'i', ' ', 'x', '1', '2', ',', ' ', 'x', '1', '3', ',', ' ', '2', '5', '5']
    0b000011111111_01101_110_01100_0010011 = true := by
  decide +kernel

/-- `andi x14, x15, 15`. -/
theorem test_andi_word : decodesTo 0b000000001111_01111_111_01110_0010011
    (.andi (.rri (tok ['x', '1', '4']) (tok ['x', '1', '5']) (15))) = true := by
  decide +kernel

/-- `andi x7, x7, 1`. -/
theorem test_andi_line : lineGives ['a', 'n', 'd', 'i', ' ', 'x', '7', ',', ' ', 'x', '7', ',', ' ', '1']
    0b000000000001_00111_111_00111_0010011 = true := by
  decide +kernel

/-- `lb x5, 0(x6)`. -/
theorem test_lb_word : decodesTo 0b000000000000_00110_000_00101_0000011
    (.lb (.rm (tok ['x', '5']) (tok ['x', '6']) (0))) = true := by
  decide +kernel

/-- `lb x5, 0(x6)`. -/
theorem test_lb_line : lineGives ['l', 'b', ' ', 'x', '5', ',', ' ', '0', '(', 'x', '6', ')']
    0b000000000000_00110_000_00101_0000011 = true := by
  decide +kernel

/-- `lh x7, -2(x8)`. -/
theorem test_lh_word : decodesTo 0b111111111110_01000_001_00111_0000011
    (.lh (.rm (tok ['x', '7']) (tok ['x', '8']) (-2))) = true := by
  decide +kernel

/-- `lh x7, -2(x8)`. -/
theorem test_lh_line : lineGives ['l', 'h', ' ', 'x', '7', ',', ' ', '-', '2', '(', 'x', '8', ')']
    0b111111111110_01000_001_00111_0000011 = true := by
  decide +kernel

/-- `lw x10, 8(x2)`. -/
theorem test_lw_word : decodesTo 0b000000001000_00010_010_01010_0000011
    (.lw (.rm (tok ['x', '1', '0']) (tok ['x', '2']) (8))) = true := by
  decide +kernel

/-- `lw x10, x2, 8`. -/
theorem test_lw_line : lineGives ['l', 'w', ' ', 'x', '1', '0', ',', ' ', 'x', '2', ',', ' ', '8']
    0b000000001000_00010_010_01010_0000011 = true := by
  decide +kernel

/-- `lbu x9, 2047(x10)`. -/
theorem test_lbu_word : decodesTo 0b011111111111_01010_100_01001_0000011
    (.lbu (.rm (tok ['x', '9']) (tok ['x', '1', '0']) (2047))) = true := by
  decide +kernel

/-- `lbu x5, 0(x10)`. -/
theorem test_lbu_line : lineGives ['l', 'b', 'u', ' ', 'x', '5', ',', ' ', '0', '(', 'x', '1', '0', ')']
    0b000000000000_01010_100_00101_0000011 = true := by
  decide +kernel

/-- `lhu x11, -2048(x12)`. -/
theorem test_lhu_word : decodesTo 0b100000000000_01100_101_01011_0000011
    (.lhu (.rm (tok ['x', '1', '1']) (tok ['x', '1', '2']) (-2048))) = true := by
  decide +kernel

/-- `lhu x11, -2048(x12)`. -/
theorem test_lhu_line : lineGives ['l', 'h', 'u', ' ', 'x', '1', '1', ',', ' ', '-', '2', '0', '4', '8', '(', 'x', '1', '2', ')']
    0b100000000000_01100_101_01011_0000011 = true := by
  decide +kernel

/-- `sb x7, 0(x12)`. -/
theorem test_sb_word : decodesTo 0b0000000_00111_01100_000_00000_0100011
    (.sb (.rm (tok ['x', '7']) (tok ['x', '1', '2']) (0))) = true := by
  decide +kernel

/-- `sb x1, 0(x2)`. -/
theorem test_sb_line : lineGives ['s', 'b', ' ', 'x', '1', ',', ' ', '0', '(', 'x', '2', ')']
    0b0000000_00001_00010_000_00000_0100011 = true := by
  decide +kernel

/-- `sh x13, 6(x14)`. -/
theorem test_sh_word : decodesTo 0b0000000_01101_01110_001_00110_0100011
    (.sh (.rm (tok ['x', '1', '3']) (tok ['x', '1', '4']) (6))) = true := by
  decide +kernel

/-- `sh x7, 2(x12)`. -/
theorem test_sh_line : lineGives ['s', 'h', ' ', 'x', '7', ',', ' ', '2', '(', 'x', '1', '2', ')']
    0b0000000_00111_01100_001_00010_0100011 = true := by
  decide +kernel

/-- `sw x3, -4(x5)`. -/
theorem test_sw_word : decodesTo 0b1111111_00011_00101_010_11100_0100011
    (.sw (.rm (tok ['x', '3']) (tok ['x', '5']) (-4))) = true := by
  decide +kernel

/-- `sw a7, -1(t0)`. -/
theorem test_sw_line : lineGives ['s', 'w', ' ', 'a', '7', ',', ' ', '-', '1', '(', 't', '0', ')']
    0b1111111_10001_00101_010_11111_0100011 = true := by
  decide +kernel

/-- `beq x1, x2, 1364`. -/
theorem test_beq_word : decodesTo 0b0_101010_00010_00001_000_1010_0_1100011
    (.beq (.rri (tok ['x', '1']) (tok ['x', '2']) (1364))) = true := by
  decide +kernel

/-- `beq x1, x2, -8192`. -/
theorem test_beq_line : lineGives ['b', 'e', 'q', ' ', 'x', '1', ',', ' ', 'x', '2', ',', ' ', '-', '8', '1', '9', '2']
    0b0_000000_00010_00001_000_0000_0_1100011 = true := by
  decide +kernel

/-- `bne x3, x4, 16`. -/
theorem test_bne_word : decodesTo 0b0_000000_00100_00011_001_1000_0_1100011
    (.bne (.rri (tok ['x', '3']) (tok ['x', '4']) (16))) = true := by
  decide +kernel

/-- `bne a0, zero, -12`. -/
theorem test_bne_line : lineGives ['b', 'n', 'e', ' ', 'a', '0', ',', ' ', 'z', 'e', 'r', 'o', ',', ' ', '-', '1', '2']
    0b1_111111_00000_01010_001_1010_1_1100011 = true := by
  decide +kernel

/-- `blt x5, x6, -16`. -/
theorem test_blt_word : decodesTo 0b1_111111_00110_00101_100_1000_1_1100011
    (.blt (.rri (tok ['x', '5']) (tok ['x', '6']) (-16))) = true := by
  decide +kernel

/-- `blt x5, x6, 12`. -/
theorem test_blt_line : lineGives ['b', 'l', 't', ' ', 'x', '5', ',', ' ', 'x', '6', ',', ' ', '1', '2']
    0b0_000000_00110_00101_100_0110_0_1100011 = true := by
  decide +kernel

/-- `bge x7, x8, 32`. -/
theorem test_bge_word : decodesTo 0b0_000001_01000_00111_101_0000_0_1100011
    (.bge (.rri (tok ['x', '7']) (tok ['x', '8']) (32))) = true := by
  decide +kernel

/-- `bge x7, x8, 32`. -/
theorem test_bge_line : lineGives ['b', 'g', 'e', ' ', 'x', '7', ',', ' ', 'x', '8', ',', ' ', '3', '2']
    0b0_000001_01000_00111_101_0000_0_1100011 = true := by
  decide +kernel

/-- `bltu x9, x10, 64`. -/
theorem test_bltu_word : decodesTo 0b0_000010_01010_01001_110_0000_0_1100011
    (.bltu (.rri (tok ['x', '9']) (tok ['x', '1', '0']) (64))) = true := by
  decide +kernel

/-- `bltu x9, x10, 64`. -/
theorem test_bltu_line : lineGives ['b', 'l', 't', 'u', ' ', 'x', '9', ',', ' ', 'x', '1', '0', ',', ' ', '6', '4']
    0b0_000010_01010_01001_110_0000_0_1100011 = true := by
  decide +kernel

/-- `bgeu x11, x12, -4`. -/
theorem test_bgeu_word : decodesTo 0b1_111111_01100_01011_111_1110_1_1100011
    (.bgeu (.rri (tok ['x', '1', '1']) (tok ['x', '1', '2']) (-4))) = true := by
  decide +kernel

/-- `bgeu x5, x6, -28`. -/
theorem test_bgeu_line : lineGives ['b', 'g', 'e', 'u', ' ', 'x', '5', ',', ' ', 'x', '6', ',', ' ', '-', '2', '8']
    0b1_111111_00110_00101_111_0010_1_1100011 = true := by
  decide +kernel

/-! ## Witnesses: concrete values that meet the hypotheses of each obligation together, clause by clause -/

/-- An instruction's answer, from the block's outcome. -/
theorem answers_of {i : Instr} {s : State} {r : BlockResult}
    (h : encodeOperands s.cfg i.mnemonic.key i.operands = r) : Answers i s r := by
  subst h
  exact exec_eq i s

def x1 : Token := tok ['x', '1']
def x31 : Token := tok ['x', '3', '1']
def x99 : Token := tok ['x', '9', '9']
def reset : State := State.reset
def truncating : State := ask .truncating (.request ⟨[], .reserved, [], [], [], 0⟩)

theorem reset_tables : reset.cfg.tables = Tables.defaultInstance := rfl
theorem truncating_tables : truncating.cfg.tables = Tables.defaultInstance := rfl
theorem knows_x1 : Knows reset.cfg x1 1 := by unfold Knows; decide +kernel
theorem knows_x31 : Knows reset.cfg x31 31 := by unfold Knows; decide +kernel
theorem unknown_x99 : Unknown reset.cfg x99 := by unfold Unknown; decide +kernel
theorem truncating_knows_x31 : Knows truncating.cfg x31 31 := by unfold Knows; decide +kernel
theorem accepts_edges_12 : Accepts reset.cfg 12 (-4096) ∧ Accepts reset.cfg 12 4095 ∧ Accepts truncating.cfg 12 4096 := by
  unfold Accepts; decide +kernel
theorem rejects_edges_12 : ¬ Accepts reset.cfg 12 (-4097) ∧ ¬ Accepts reset.cfg 12 4096 := by
  unfold Accepts; decide +kernel
theorem accepts_edges_13 : Accepts reset.cfg 13 (-8192) ∧ Accepts reset.cfg 13 8191 ∧ Accepts truncating.cfg 13 8192 := by
  unfold Accepts; decide +kernel
theorem rejects_edges_13 : ¬ Accepts reset.cfg 13 (-8193) ∧ ¬ Accepts reset.cfg 13 8192 := by
  unfold Accepts; decide +kernel

/-- `SourceGivenInstructions`: known names and the edges of the range, in the restricted tables. -/
theorem wit_SourceGivenInstructions :
    Config.sourceOnly.tables.regOf x31 = some 31 ∧ (-(2 ^ 12 : Int) ≤ -4096 ∧ (-4096 : Int) < 2 ^ 12) ∧
    (-(2 ^ 12 : Int) ≤ 4095 ∧ (4095 : Int) < 2 ^ 12) := by decide +kernel

/-- `RegisterRegisterInstructions`: known, first, second and third name unknown, another form. -/
theorem wit_RegisterRegisterInstructions : reset.cfg.tables = Tables.defaultInstance ∧
    ((.and, 0b0000000, 0b111) : Row7) ∈ instrsR ∧
    (Knows reset.cfg x1 1 ∧ Knows reset.cfg x31 31) ∧ Unknown reset.cfg x99 ∧
    (∀ r0 r1 r2, Operands.rri x1 x1 0 ≠ .rrr r0 r1 r2) :=
  ⟨reset_tables, by simp [instrsR], ⟨knows_x1, knows_x31⟩, unknown_x99, by simp⟩

/-- `ImmediateAndLoadInstructions`: both forms, the edges of the range, both policies, unknown names, another form. -/
theorem wit_ImmediateAndLoadInstructions : reset.cfg.tables = Tables.defaultInstance ∧
    truncating.cfg.tables = Tables.defaultInstance ∧ ((.lhu, 0b0000011, 0b101) : Row7) ∈ instrsI ∧
    (Knows reset.cfg x1 1 ∧ Knows reset.cfg x31 31 ∧ Knows truncating.cfg x31 31) ∧ Unknown reset.cfg x99 ∧
    (Accepts reset.cfg 12 (-4096) ∧ Accepts reset.cfg 12 4095 ∧ Accepts truncating.cfg 12 4096) ∧
    (¬ Accepts reset.cfg 12 (-4097) ∧ ¬ Accepts reset.cfg 12 4096) ∧
    (∀ r0 r1 imm, Operands.reserved ≠ .rri r0 r1 imm ∧ Operands.reserved ≠ .rm r0 r1 imm) :=
  ⟨reset_tables, truncating_tables, by simp [instrsI], ⟨knows_x1, knows_x31, truncating_knows_x31⟩, unknown_x99,
    accepts_edges_12, rejects_edges_12, by simp⟩

/-- `StoreInstructions`. -/
theorem wit_StoreInstructions : reset.cfg.tables = Tables.defaultInstance ∧ ((.sh, 0b001) : Row3) ∈ instrsS ∧
    (Knows reset.cfg x1 1 ∧ Knows reset.cfg x31 31) ∧ Unknown reset.cfg x99 ∧
    (Accepts reset.cfg 12 (-4096) ∧ Accepts reset.cfg 12 4095 ∧ Accepts truncating.cfg 12 4096) ∧
    (¬ Accepts reset.cfg 12 (-4097) ∧ ¬ Accepts reset.cfg 12 4096) ∧
    (∀ r0 base offset, Operands.rri x1 x1 0 ≠ .rm r0 base offset) :=
  ⟨reset_tables, by simp [instrsS], ⟨knows_x1, knows_x31⟩, unknown_x99, accepts_edges_12, rejects_edges_12, by simp⟩

/-- `BranchInstructions`. -/
theorem wit_BranchInstructions : reset.cfg.tables = Tables.defaultInstance ∧ ((.bgeu, 0b111) : Row3) ∈ instrsSB ∧
    (Knows reset.cfg x1 1 ∧ Knows reset.cfg x31 31) ∧ Unknown reset.cfg x99 ∧
    (Accepts reset.cfg 13 (-8192) ∧ Accepts reset.cfg 13 8191 ∧ Accepts truncating.cfg 13 8192) ∧
    (¬ Accepts reset.cfg 13 (-8193) ∧ ¬ Accepts reset.cfg 13 8192) ∧
    (∀ r0 r1 offset, Operands.rm x1 x1 0 ≠ .rri r0 r1 offset) :=
  ⟨reset_tables, by simp [instrsSB], ⟨knows_x1, knows_x31⟩, unknown_x99, accepts_edges_13, rejects_edges_13, by simp⟩

/-- `ErrorOrderOfTheBlock`: `sub` in the restricted tables has no class; `add x1, x99, x99` has its first unknown name in
second place; the other clauses. -/
theorem wit_ErrorOrderOfTheBlock :
    Config.sourceOnly.tables.classOf (Instr.sub .reserved).mnemonic.key = none ∧
    (reset.cfg.tables.classOf (Instr.add .reserved).mnemonic.key = some .R ∧ Operands.fits .reserved .R = false) ∧
    (Operands.fits (.rrr x1 x99 x99) .R = true ∧ (Operands.rrr x1 x99 x99).names[1]? = some x99 ∧
      reset.cfg.tables.regOf x99 = none ∧
      ∀ m earlier, m < 1 → (Operands.rrr x1 x99 x99).names[m]? = some earlier → ¬ Unknown reset.cfg earlier) ∧
    (∀ name ∈ (Operands.rm x1 x31 4096).names, reset.cfg.tables.regOf name ≠ none) ∧
    (¬ Accepts reset.cfg FormatClass.I.immWidth 4096 ∧ Accepts reset.cfg FormatClass.I.immWidth 4095) := by
  refine ⟨by decide +kernel, by decide +kernel, ⟨rfl, rfl, by decide +kernel, ?_⟩, by decide +kernel,
    rejects_edges_12.2, accepts_edges_12.2.1⟩
  intro m earlier hm h
  obtain rfl : m = 0 := by omega
  cases h
  unfold Unknown
  decide +kernel

/-- `WordExactlyWhereWellFormed`: an instruction on each side. -/
theorem wit_WordExactlyWhereWellFormed : Instr.wellFormed reset.cfg (.add (.rrr x1 x31 x1)) = true ∧
    Instr.wellFormed reset.cfg (.add (.rrr x1 x31 x99)) = false := by decide +kernel

theorem wit_InstructionFrame : ∃ t, exec (.sw (.rm x1 x31 (-4096))) reset = .next t := ⟨_, exec_eq _ _⟩

/-- `OddBranchOffsetAnswersAsTheEvenOneBelow`: the least and the greatest odd offset accepted, and one rejected. -/
theorem wit_OddBranchOffset : reset.cfg.tables = Tables.defaultInstance ∧ ((.beq, 0b000) : Row3) ∈ instrsSB ∧
    (-8191 : Int) % 2 = 1 ∧ (8191 : Int) % 2 = 1 ∧ (8193 : Int) % 2 = 1 :=
  ⟨reset_tables, by simp [instrsSB], by decide, by decide, by decide⟩

/-- `AliasingBandsGiveOneWord`: the ends of each band, and a row of each class. -/
theorem wit_AliasingBands : reset.cfg.tables = Tables.defaultInstance ∧
    (((.addi, 0b0010011, 0b000) : Row7) ∈ instrsI ∧ ((.sb, 0b000) : Row3) ∈ instrsS ∧ ((.bne, 0b001) : Row3) ∈ instrsSB) ∧
    ((-4096 : Int) ≤ -4096 ∧ (-4096 : Int) < 0) ∧ ((-4096 : Int) ≤ -1 ∧ (-1 : Int) < 0) ∧
    ((-8192 : Int) ≤ -8192 ∧ (-8192 : Int) < 0) ∧ ((-8192 : Int) ≤ -1 ∧ (-1 : Int) < 0) :=
  ⟨reset_tables, ⟨by simp [instrsI], by simp [instrsS], by simp [instrsSB]⟩, by decide, by decide, by decide, by decide⟩

theorem wit_WordCarriesItsOwnRow : reset.cfg.tables = Tables.defaultInstance ∧
    Answers (.bge (.rri x31 x1 (-4096))) reset (.ok 0x801FD063) := ⟨reset_tables, answers_of (by decide +kernel)⟩

theorem wit_TruncatePolicy : truncating.cfg.policy = .truncate := rfl

theorem wit_ClassifierOfTheDefaultInstance :
    (ask .defaultInstance (.classify (tok ['b', 'l', 't', 'u']))).cfg.tables = Tables.defaultInstance ∧
    (ask .defaultInstance (.classify (tok ['b', 'l', 't', 'u']))).inputs = .classify (tok ['b', 'l', 't', 'u']) :: [] :=
  ⟨rfl, rfl⟩

/-- `UnknownMnemonicBeforeEverything`: a line with a mnemonic the restricted tables do not hold. -/
theorem wit_UnknownMnemonicBeforeEverything :
    normalise (tok ['s', 'u', 'b', ' ', '8', '(']) = [tok ['s', 'u', 'b'], tok ['8', '(']] ∧
    Config.sourceOnly.tables.classOf (tok ['s', 'u', 'b']) = none := by decide +kernel

theorem wit_ConstantLookupsCannotFail : Config.sourceOnly.tables.classOf (tok ['a', 'd', 'd']) = some .R ∧
    Config.sourceOnly.tables.classOf (tok ['s', 'w']) = some .S := by decide +kernel

theorem wit_SourceOnlyWords :
    encodeFields .sourceOnly ⟨tok ['l', 'w'], .rm, tok ['x', '1', '0'], tok ['f', 'p'], [], 8⟩ = .ok 0x00842503 := by
  decide +kernel

/-- The formatter's statements at the ends of their ranges, for the narrowest and the widest field. -/
theorem wit_FormatterWritesNonNegativeValues : (0 < 1 ∧ (0 : Int) ≤ 1 ∧ (1 : Int) < 2 ^ 1) ∧
    (0 < 13 ∧ (0 : Int) ≤ 8191 ∧ (8191 : Int) < 2 ^ 13) ∧ (0 < 12 ∧ (0 : Int) ≤ 0 ∧ (0 : Int) < 2 ^ 12) := by decide

theorem wit_FormatterWritesNegativeValues : (0 < 1 ∧ -(2 ^ 1 : Int) ≤ -2 ∧ (-2 : Int) < 0) ∧
    (0 < 12 ∧ -(2 ^ 12 : Int) ≤ -1 ∧ (-1 : Int) < 0) := by decide

theorem wit_FormatterOutsideTheDomain : (0 < 12 ∧ (-4097 : Int) < -(2 ^ 12 : Int)) ∧
    (0 < 12 ∧ (2 ^ 12 : Int) ≤ 4096) := by decide

/-- One value at each end of each band of `FormatterReadsBack`. -/
theorem wit_FormatterReadsBack :
    (bin .error (-2048) 12 = some 0b100000000000#12 ∧ bin .error 2047 12 = some 0b011111111111#12) ∧
    (bin .error 2048 12 = some 0b100000000000#12 ∧ bin .error 4095 12 = some 0b111111111111#12) ∧
    (bin .error (-4096) 12 = some 0b000000000000#12 ∧ bin .error (-2049) 12 = some 0b011111111111#12) := by
  decide +kernel

theorem wit_OpcodeRowsAreDisjoint : (⟨.sub, .R, maskR, 0x40000033⟩ : OpcodeRow) ∈ opcodeRows ∧
    OpcodeRow.fits ⟨.sub, .R, maskR, 0x40000033⟩ 0x407302B3 = true := by decide +kernel

theorem wit_DecodingAnEncodedInstruction : encode (.blt (.rri (tok ['s', '0']) x31 (-8191))) = some 0x01F44063 := by
  decide +kernel

theorem wit_EncodingADecodedWord : decodesTo 0x80665583 (.lhu (.rm (tok ['x', '1', '1']) (tok ['x', '1', '2']) (-2042)))
    = true := by decide +kernel

theorem wit_MachineAgreesWithTheOpcodeTable : reset.cfg = Config.defaultInstance := rfl

/-- `StepRunsTheRequestedInstruction`: a next state with a response, and an input of each of the four kinds. -/
theorem wit_StepRunsTheRequestedInstruction :
    (∃ u r, exec (.add (.rrr x1 x1 x1)) (reset.advance []) = .next u ∧ u.resp = some r) ∧
    instrOf ⟨tok ['a', 'd', 'd'], .rrr, x1, x1, x1, 0⟩ = some (.add (.rrr x1 x1 x1)) ∧
    frontEnd reset.cfg (tok ['a', 'd', 'd', ' ', 'x', '1', ' ', 'x', '1', ' ', 'x', '1']) =
      .request ⟨tok ['a', 'd', 'd'], .rrr, x1, x1, x1, 0⟩ [x1, x1, x1] ∧
    instrOf (portRequest ⟨true, 0x6164640000000000, 0, 0x7831000000000000, 0x7831000000000000, 0x7831000000000000, 0⟩) =
      some (.add (.rrr x1 x1 x1)) ∧
    decodeTableWord 32 0x001080B3 = some (.add (.rrr x1 x1 x1)) :=
  ⟨⟨_, _, exec_eq _ _, rfl⟩, by decide +kernel, by decide +kernel, by decide +kernel, by decide +kernel⟩

theorem wit_FetchedWordComesBack : reset.cfg.tables = Tables.defaultInstance ∧
    ∃ i, decodeWord 0xFE62F2E3 = .ok i :=
  ⟨reset_tables, .bgeu (.rri (tok ['x', '5']) (tok ['x', '6']) (-28)), by rfl⟩

/-- `StepFrame`: a step with nothing presented and a step with an input. -/
theorem wit_StepFrame : (∃ t, step reset = .next t) ∧ reset.inputs = [] ∧
    (∃ t, step (ask .defaultInstance (.line [])) = .next t) ∧ (ask .defaultInstance (.line [])).inputs ≠ [] :=
  ⟨⟨_, step_nil rfl⟩, rfl, ⟨_, step_cons rfl⟩, by simp [ask]⟩

/-- `OutcomeIndependentOfHistory`: one input in two states that differ in everything else. -/
theorem wit_OutcomeIndependentOfHistory :
    (ask .defaultInstance (.line [])).cfg =
      (State.emit (ask .defaultInstance (.line [])) (.classified none)).cfg ∧
    (∃ t, step (ask .defaultInstance (.line [])) = .next t) ∧
    (∃ t, step (State.emit (ask .defaultInstance (.line [])) (.classified none)) = .next t) :=
  ⟨rfl, ⟨_, step_cons rfl⟩, ⟨_, step_cons rfl⟩⟩

/-- `StepKeepsTheInvariant`: a state with an input and an outcome that meets the invariant, and its step. -/
theorem wit_StepKeepsTheInvariant : ∃ s t : State, Inv s ∧ step s = .next t ∧ s.inputs ≠ [] ∧ s.outputs ≠ [] :=
  ⟨State.emit (ask .defaultInstance (.line [])) (.classified none), _,
    ⟨rfl, by simp [ask, State.emit, State.reset], by simp [ask, State.emit, State.reset, Output.Sound]⟩,
    step_cons rfl, by simp [ask, State.emit], by simp [State.emit]⟩

/-- `NormaliserSplitsAtWhitespaceOnly`: the first and the last whitespace characters, and a token. -/
theorem wit_NormaliserSplits : isSpace 0x20 = true ∧ isSpace 0x09 = true ∧ isSpace 0x0D = true ∧
    PlainToken (tok ['-', '4', '(', 'x', '5', ')']) := by unfold PlainToken; decide +kernel

/-- `BlankLinesPassThrough`: a blank line in a state, with its step. -/
theorem wit_BlankLinesPassThrough : encodeInstruction .defaultInstance (tok [' ', ',']) = .ok [] ∧
    (ask .defaultInstance (.line (tok [' ', ',']))).cfg = Config.defaultInstance ∧
    ∃ t, step (ask .defaultInstance (.line (tok [' ', ',']))) = .next t :=
  ⟨by decide +kernel, rfl, _, step_cons rfl⟩

/-- `ErrorPriorityOnLines`: a line for each clause; the mnemonics' classes. -/
theorem wit_ErrorPriorityOnLines_mnemonic :
    normalise (tok ['f', 'o', 'o', ' ', 'x', '1']) = [tok ['f', 'o', 'o'], x1] ∧
    reset.cfg.tables.classOf (tok ['f', 'o', 'o']) = none := by decide +kernel

theorem wit_ErrorPriorityOnLines_R : normalise (tok ['a', 'd', 'd', ' ', 'x', '1', ' ', 'x', '9', '9', ' ', 'x', '9', '9'])
      = [tok ['a', 'd', 'd'], x1, x99, x99] ∧
    reset.cfg.tables.classOf (tok ['a', 'd', 'd']) = some .R ∧ [x1, x99].length ≠ 3 ∧
    reset.cfg.tables.regOf x1 ≠ none ∧ reset.cfg.tables.regOf x99 = none := by decide +kernel

theorem wit_ErrorPriorityOnLines_mem : normalise (tok ['l', 'w', ' ', 'x', '1', ' ', '4', '0', '9', '6', '(', 'x', '1', ')'])
      = [tok ['l', 'w'], x1, memToken (tok ['4', '0', '9', '6']) x1] ∧
    reset.cfg.tables.classOf (tok ['l', 'w']) = some .I ∧ reset.cfg.tables.classOf (tok ['s', 'w']) = some .S ∧
    ascii '(' ∈ memToken (tok ['4', '0', '9', '6']) x1 ∧ [x1, x1, x1].length ≠ 2 ∧
    parseMem (tok ['8', '(']) = none ∧ parseMem (memToken (tok ['4', '0', '9', '6']) x1) = some (4096, x1) ∧
    reset.cfg.tables.regOf x1 ≠ none ∧ reset.cfg.tables.regOf x99 = none := by decide +kernel

theorem wit_ErrorPriorityOnLines_int : normalise (tok ['b', 'e', 'q', ' ', 'x', '1', ' ', 'x', '1', ' ', '8', '1', '9', '2'])
      = [tok ['b', 'e', 'q'], x1, x1, tok ['8', '1', '9', '2']] ∧
    reset.cfg.tables.classOf (tok ['b', 'e', 'q']) = some .SB ∧ reset.cfg.tables.classOf (tok ['a', 'd', 'd', 'i']) = some .I ∧
    ascii '(' ∉ x1 ∧ [x1].length ≠ 3 ∧ parseInt x1 = none ∧ parseInt (tok ['8', '1', '9', '2']) = some 8192 ∧
    reset.cfg.tables.regOf x1 ≠ none ∧ reset.cfg.tables.regOf x99 = none := by decide +kernel

theorem wit_UsualSpellingNormalises : PlainToken (tok ['a', 'd', 'd']) ∧ ∀ t ∈ [x1, x31, x99], PlainToken t := by
  unfold PlainToken
  decide +kernel

/-- `SourceLinesGiveTheirWords`: a mnemonic, operands and a word for each of the three spellings. -/
theorem wit_SourceLinesGiveTheirWords :
    (reset.cfg.tables.classOf (tok ['a', 'd', 'd']) = some .R ∧
      encodeOperands reset.cfg (tok ['a', 'd', 'd']) (.rrr x1 x31 x1) = .ok 0x001F80B3) ∧
    (reset.cfg.tables.classOf (tok ['b', 'n', 'e']) = some .SB ∧ parseInt (tok ['-', '8', '1', '9', '2']) = some (-8192) ∧
      encodeOperands reset.cfg (tok ['b', 'n', 'e']) (.rri x1 x31 (-8192)) = .ok 0x01F09063) ∧
    (reset.cfg.tables.classOf (tok ['s', 'w']) = some .S ∧ parseInt (tok ['4', '0', '9', '5']) = some 4095 ∧
      encodeOperands reset.cfg (tok ['s', 'w']) (.rm x1 x31 4095) = .ok 0xFE1FAFA3) := by decide +kernel

theorem wit_BothFormsOfClassIAgree : reset.cfg.tables.classOf (tok ['a', 'd', 'd', 'i']) = some .I ∧
    (x1 ≠ [] ∧ ∀ b ∈ x1, isNameChar b = true) ∧
    normalise (tok ['a', 'd', 'd', 'i', ' ', 'x', '1', ' ', 'x', '1', ' ', '8']) = [tok ['a', 'd', 'd', 'i'], x1, x1, tok ['8']] ∧
    normalise (tok ['a', 'd', 'd', 'i', ' ', 'x', '1', ' ', '8', '(', 'x', '1', ')']) =
      [tok ['a', 'd', 'd', 'i'], x1, memToken (tok ['8']) x1] := by decide +kernel

theorem wit_SuccessfulTextIsTheWord :
    encodeInstruction .defaultInstance (tok ['a', 'd', 'd', ' ', 'x', '1', ' ', 'x', '1', ' ', 'x', '1']) =
      .ok (bitString 0x001080B3#32) ∧ bitString 0x001080B3#32 ≠ [] := by decide +kernel

theorem wit_KeyPortMatchesExactlyTheKey : isKey (tok ['s', 'l', 't', 'i', 'u']) = true := by decide +kernel

/-- `PortLevelComputesTheModelLevel`: a request with a word, one with an error, and one the front end does not put. -/
theorem wit_PortLevelComputesTheModelLevel :
    (toPorts .defaultInstance ⟨tok ['l', 'w'], .rm, x1, x31, [], -4096⟩).isSome = true ∧
    encodeFields .defaultInstance ⟨tok ['l', 'w'], .rm, x1, x31, [], -4096⟩ = .ok 0x000FA083 ∧
    reset.cfg.tables.classOf (tok ['l', 'w']) = some .I ∧
    (toPorts .defaultInstance ⟨tok ['l', 'w'], .rm, x99, x31, [], 2147483647⟩).isSome = true ∧
    encodeFields .defaultInstance ⟨tok ['l', 'w'], .rm, x99, x31, [], 2147483647⟩ = .err .unknownRegister .r0 ∧
    toPorts .defaultInstance ⟨tok ['l', 'w'], .rm, x1, x31, [], 2147483648⟩ = none := by decide +kernel

/-- `HitAndClassFollowTheMnemonicKey`: two different requests with one key, a key that hits and a key that misses. -/
theorem wit_HitAndClassFollowTheMnemonicKey :
    (⟨true, 0x7377000000000000, 2, 0, 0, 0, 0⟩ : PortIn).mnKey = (⟨false, 0x7377000000000000, 1, 1, 1, 1, 1⟩ : PortIn).mnKey ∧
    (rvEncoder .defaultInstance ⟨true, 0x7377000000000000, 2, 0, 0, 0, 0⟩).mnHit = true ∧
    (⟨true, 0, 2, 0, 0, 0, 0⟩ : PortIn).mnKey = (⟨false, 0, 1, 1, 1, 1, 1⟩ : PortIn).mnKey ∧
    (rvEncoder .defaultInstance ⟨true, 0, 2, 0, 0, 0, 0⟩).mnHit = false := by decide +kernel

theorem wit_DiagnosticLineKeepsItsConstraints :
    newline ∉ (⟨.unknownRegister, x99, tok ['a', 'd', 'd', ' ', 'x', '9', '9', '\n']⟩ : EncodeError).tok := by decide +kernel

theorem wit_RunOverAFileGivesItsOutput :
    (ask .defaultInstance (.line x1)).inputs = [x1].map .line ∧ (ask .defaultInstance (.line x1)).outputs = [] := ⟨rfl, rfl⟩

end Sys2Proof.Tests.Slice0
end

section
/-! The formatter inside its domain (`40_front_end.md` R80, R81) and the text of a successful line (R93). -/

namespace Sys2Proof.Proofs.FrontEnd

open Sys2Proof.Machine

/-! ## The formatter -/

/-- The unsigned value of the `w`-bit vector of an integer is its residue modulo `2^w`. -/
theorem toNat_ofInt_cast (w : Nat) (v : Int) : ((BitVec.ofInt w v).toNat : Int) = v % 2 ^ w := by
  have hpos : (0 : Int) < 2 ^ w := by positivity
  rw [BitVec.toNat_ofInt, Nat.cast_pow, Nat.cast_ofNat, Int.toNat_of_nonneg (Int.emod_nonneg v hpos.ne')]

/-- Inside the domain the policy does not matter: the field holds `v mod 2^w` (R80, R81). -/
theorem bin_toNat_of_inDomain (p : OverflowPolicy) {v : Int} {w : Nat} (h : inDomain v w = true) :
    ∃ b, bin p v w = some b ∧ (b.toNat : Int) = v % 2 ^ w :=
  ⟨BitVec.ofInt w v, bin_of_inDomain p h, toNat_ofInt_cast w v⟩

/-- Settles O20: `v` is its own residue modulo `2^w`. -/
theorem formatterWritesNonNegativeValues : Obligations.FormatterWritesNonNegativeValues := by
  intro p w v _ hnonneg hlt
  have hdom : inDomain v w = true := (inDomain_iff v w).mpr ⟨by linarith, hlt⟩
  obtain ⟨b, hb, hval⟩ := bin_toNat_of_inDomain p hdom
  exact ⟨b, hb, hval.trans (Int.emod_eq_of_lt hnonneg hlt)⟩

/-- Settles O21: `2^w + v` is congruent to `v` and lies in `[0, 2^w)`. -/
theorem formatterWritesNegativeValues : Obligations.FormatterWritesNegativeValues := by
  intro p w v _ hlow hneg
  have hdom : inDomain v w = true := (inDomain_iff v w).mpr ⟨hlow, by linarith [show (0 : Int) < 2 ^ w by positivity]⟩
  have hmod : v % 2 ^ w = 2 ^ w + v := by
    rw [← Int.add_emod_left, Int.emod_eq_of_lt (by linarith) (by linarith)]
  obtain ⟨b, hb, hval⟩ := bin_toNat_of_inDomain p hdom
  exact ⟨b, hb, hval.trans hmod⟩

/-! ## The text of a word -/

@[simp] theorem length_bitString {n : Nat} (v : BitVec n) : (bitString v).length = n := by simp [bitString]

/-- Character `k` of `str(v)` is bit `n - 1 - k`: the most significant bit comes first (R8). -/
theorem getElem?_bitString {n k : Nat} (v : BitVec n) (h : k < n) :
    (bitString v)[k]? = some (bitChar (v.getLsbD (n - 1 - k))) := by
  simp [bitString, h]

/-- The two ways a line succeeds: it is blank, or its request is answered by a word (R92, R93). -/
theorem encodeInstruction_eq_ok_iff (c : Config) (l text : Line) :
    encodeInstruction c l = .ok text ↔
      (frontEnd c l = .blank ∧ text = []) ∨
      ∃ q ops w, frontEnd c l = .request q ops ∧ encodeFields c q = .ok w ∧ text = bitString w := by
  unfold encodeInstruction
  cases hf : frontEnd c l with
  | blank => simp [eq_comm]
  | fail kind token => simp
  | request q ops =>
    cases hw : encodeFields c q with
    | ok w => simp [textResult, hw, eq_comm]
    | err kind slot => simp [textResult, hw]

/-- Settles O48: a text that is not empty comes from a request, and it is the `bitString` of the answered word. -/
theorem successfulTextIsTheWord : Obligations.SuccessfulTextIsTheWord := by
  intro c l text hok hne
  obtain ⟨-, hblank⟩ | ⟨q, ops, w, hreq, hword, rfl⟩ := (encodeInstruction_eq_ok_iff c l text).mp hok
  · exact absurd hblank hne
  · exact ⟨q, ops, w, hreq, hword, length_bitString w, fun k hk => getElem?_bitString w hk⟩

end Sys2Proof.Proofs.FrontEnd
end

section
/-! The classifier comes first (`41_classifier_regdecoder.md` R101), and the constant lookups after it cannot fail
(R103). -/

namespace Sys2Proof.Proofs.Classifier

open Sys2Proof.Machine

/-! ## Only a failed classification is `UnknownMnemonic` -/

section
variable {c : Config} {slot : Slot}

theorem withReg_ne_unknownMnemonic {name : Token} {regSlot : Slot} {next : RegIndex → BlockResult}
    (hnext : ∀ r, next r ≠ .err .unknownMnemonic slot) : withReg c name regSlot next ≠ .err .unknownMnemonic slot := by
  cases hreg : c.tables.regOf name with
  | none => simp [withReg_of_none hreg]
  | some r => simpa [withReg_of_some hreg] using hnext r

theorem withImm_ne_unknownMnemonic {imm : Int} {w : Nat} {next : BitVec w → BlockResult}
    (hnext : ∀ b, next b ≠ .err .unknownMnemonic slot) : withImm c imm w next ≠ .err .unknownMnemonic slot := by
  cases hbin : bin c.policy imm w with
  | none => simp [withImm_of_none hbin]
  | some b => simpa [withImm_of_some hbin] using hnext b

/-- The shape that the encoders of classes I, S and SB share: two registers, an immediate, a word. -/
theorem withRegsImm_ne_unknownMnemonic {n0 n1 : Token} {imm : Int} {w : Nat}
    {pack : RegIndex → RegIndex → BitVec w → Word} :
    (withReg c n0 .r0 fun a => withReg c n1 .r1 fun b => withImm c imm w fun i => .ok (pack a b i)) ≠
      .err .unknownMnemonic slot :=
  withReg_ne_unknownMnemonic fun _ => withReg_ne_unknownMnemonic fun _ => withImm_ne_unknownMnemonic fun _ => nofun

theorem encodeR_ne_unknownMnemonic {f7 : BitVec 7} {f3 : BitVec 3} {opc : BitVec 7} {r0 r1 r2 : Token} :
    encodeR c f7 f3 opc r0 r1 r2 ≠ .err .unknownMnemonic slot :=
  withReg_ne_unknownMnemonic fun _ => withReg_ne_unknownMnemonic fun _ => withReg_ne_unknownMnemonic fun _ => nofun

/-- Once a mnemonic has its row, no operands lead back to `UnknownMnemonic`: a class encoder or the form mismatch
answers. -/
theorem encodeRow_ne_unknownMnemonic (row : RowConstants) (ops : Operands) :
    encodeRow c row ops ≠ .err .unknownMnemonic slot := by
  unfold encodeRow
  split
  · exact encodeR_ne_unknownMnemonic
  iterate 4 · exact withRegsImm_ne_unknownMnemonic
  · exact nofun

end

theorem encodeOperands_of_rowOf_none {c : Config} {mn : Token} (h : c.tables.rowOf mn = none) (ops : Operands) :
    encodeOperands c mn ops = .err .unknownMnemonic .mn := by simp [encodeOperands, h, raise]

theorem encodeOperands_of_rowOf_some {c : Config} {mn : Token} {row : RowConstants}
    (h : c.tables.rowOf mn = some row) (ops : Operands) : encodeOperands c mn ops = encodeRow c row ops := by
  simp [encodeOperands, h]

/-- `UnknownMnemonic` is the answer exactly where the classifier finds no class (R100, R101). -/
theorem encodeOperands_eq_unknownMnemonic_iff (c : Config) (mn : Token) (ops : Operands) :
    encodeOperands c mn ops = .err .unknownMnemonic .mn ↔ c.tables.classOf mn = none := by
  rw [← c.rowOf_eq_none_iff mn]
  cases hrow : c.tables.rowOf mn with
  | none => simp [encodeOperands_of_rowOf_none hrow]
  | some row => simpa [encodeOperands_of_rowOf_some hrow] using encodeRow_ne_unknownMnemonic row ops

/-- The front end stops at an unknown mnemonic before it parses an operand (R92, R101). -/
theorem frontEnd_of_classOf_none {c : Config} {l : Line} {mn : Token} {ops : List Token}
    (hl : normalise l = mn :: ops) (h : c.tables.classOf mn = none) : frontEnd c l = .fail .unknownMnemonic mn := by
  simp [frontEnd, hl, h]

theorem encodeInstruction_of_fail {c : Config} {l : Line} {kind : ErrorKind} {token : Token}
    (h : frontEnd c l = .fail kind token) : encodeInstruction c l = .err ⟨kind, token, l⟩ := by
  simp [encodeInstruction, h]

/-- Settles O14: the block by its row, the line by the front end, which classifies before it parses. -/
theorem unknownMnemonicBeforeEverything : Obligations.UnknownMnemonicBeforeEverything :=
  fun c => ⟨fun q => encodeOperands_eq_unknownMnemonic_iff c q.mn (operandsOf q),
    fun _ _ _ hl h => encodeInstruction_of_fail (frontEnd_of_classOf_none hl h)⟩

/-! ## The constant lookups -/

/-- The constants of a class exist exactly where the lookups it consults succeed: OPC, F3 and, for R alone, F7. -/
theorem constantsOf_isSome_iff (t : Tables) (mn : Token) (cls : FormatClass) :
    (t.constantsOf mn cls).isSome = true ↔ (lookup t.opc mn).isSome = true ∧ (lookup t.f3 mn).isSome = true ∧
      (cls = .R → (lookup t.f7 mn).isSome = true) := by
  cases cls with
  | R => simpa [Tables.constantsOf, Option.isSome_iff_exists, Option.bind_eq_some_iff] using by tauto
  | I | S | SB => simp [Tables.constantsOf, Option.isSome_iff_exists, Option.bind_eq_some_iff, and_comm]

/-- A class other than R does not consult F7. -/
theorem constantsOf_replace_f7 (t : Tables) (mn : Token) {cls : FormatClass} (hcls : cls ≠ .R)
    (f7 : List (Token × BitVec 7)) : Tables.constantsOf { t with f7 := f7 } mn cls = t.constantsOf mn cls := by
  cases cls with
  | R => exact absurd rfl hcls
  | I => rfl
  | S => rfl
  | SB => rfl

/-- A classified mnemonic of a configuration has the constants of its class (R24, R103). -/
theorem constantsOf_isSome_of_classOf {c : Config} {mn : Token} {cls : FormatClass}
    (h : c.tables.classOf mn = some cls) : (c.tables.constantsOf mn cls).isSome = true := by
  simpa [Tables.rowOf, h] using Tables.rowOf_isSome c.wf h

/-- Settles O16: the invariant gives the constants, and they give back the lookups they are made of. -/
theorem constantLookupsCannotFail : Obligations.ConstantLookupsCannotFail := by
  intro c mn cls hcls
  have hconst := constantsOf_isSome_of_classOf hcls
  obtain ⟨hopc, hf3, hf7⟩ := (constantsOf_isSome_iff c.tables mn cls).mp hconst
  exact ⟨hopc, hf3, hf7, hconst, constantsOf_replace_f7 c.tables mn⟩

end Sys2Proof.Proofs.Classifier
end

section
/-! Where the four packers put each field (`42_r_format.md` R120, `43_i_format.md` R140, `44_s_format.md` R160,
`45_sb_format.md` R170), and the words of `add`, `addi` and `lw` in every configuration (R122, R142, R150). -/

namespace Sys2Proof.Proofs.RFormat

open Sys2Proof.Machine Sys2Proof.Proofs.Classifier

/-! ## Fields of a concatenation

A packer is a chain `((a ++ b) ++ c) ++ …`: its last field is the low end, and every other field is found above it.
The two rules are used as terms, because `simp` does not match the sum of the widths against the 32 of `Word`. -/

section
variable {v w start len : Nat} {hi : BitVec v} {lo : BitVec w}

theorem field_low : (hi ++ lo).extractLsb' 0 w = lo := by
  rw [BitVec.extractLsb'_append_eq_of_add_le (Nat.zero_add w).le, BitVec.extractLsb'_eq_self]

theorem field_above {x : BitVec len} (hx : hi.extractLsb' (start - w) len = x) (hle : w ≤ start := by decide) :
    (hi ++ lo).extractLsb' start len = x :=
  (BitVec.extractLsb'_append_eq_of_le hle).trans hx

end

section
variable (f7 opc : BitVec 7) (f3 : BitVec 3) (rd rs1 rs2 : RegIndex) (i12 : BitVec 12) (i13 : BitVec 13)

/-! ## The fields of each packer, from the low end -/

theorem packR_fields :
    (packR f7 rs2 rs1 f3 rd opc).extractLsb' 0 7 = opc ∧ (packR f7 rs2 rs1 f3 rd opc).extractLsb' 7 5 = rd ∧
    (packR f7 rs2 rs1 f3 rd opc).extractLsb' 12 3 = f3 ∧ (packR f7 rs2 rs1 f3 rd opc).extractLsb' 15 5 = rs1 ∧
    (packR f7 rs2 rs1 f3 rd opc).extractLsb' 20 5 = rs2 ∧ (packR f7 rs2 rs1 f3 rd opc).extractLsb' 25 7 = f7 :=
  ⟨field_low, field_above field_low, field_above (field_above field_low),
    field_above (field_above (field_above field_low)),
    field_above (field_above (field_above (field_above field_low))),
    field_above (field_above (field_above (field_above (field_above BitVec.extractLsb'_eq_self))))⟩

theorem packI_fields :
    (packI i12 rs1 f3 rd opc).extractLsb' 0 7 = opc ∧ (packI i12 rs1 f3 rd opc).extractLsb' 7 5 = rd ∧
    (packI i12 rs1 f3 rd opc).extractLsb' 12 3 = f3 ∧ (packI i12 rs1 f3 rd opc).extractLsb' 15 5 = rs1 ∧
    (packI i12 rs1 f3 rd opc).extractLsb' 20 12 = i12 :=
  ⟨field_low, field_above field_low, field_above (field_above field_low),
    field_above (field_above (field_above field_low)),
    field_above (field_above (field_above (field_above BitVec.extractLsb'_eq_self)))⟩

/-- An S word is an R word with the immediate's low part for `rd` and its high part for `funct7` (R160). -/
theorem packS_eq_packR :
    packS i12 rs2 rs1 f3 opc = packR (i12.extractLsb' 5 7) rs2 rs1 f3 (i12.extractLsb' 0 5) opc := rfl

theorem packSB_fields :
    (packSB i13 rs2 rs1 f3 opc).extractLsb' 0 7 = opc ∧
    (packSB i13 rs2 rs1 f3 opc).extractLsb' 7 1 = i13.extractLsb' 11 1 ∧
    (packSB i13 rs2 rs1 f3 opc).extractLsb' 8 4 = i13.extractLsb' 1 4 ∧
    (packSB i13 rs2 rs1 f3 opc).extractLsb' 12 3 = f3 ∧
    (packSB i13 rs2 rs1 f3 opc).extractLsb' 15 5 = rs1 ∧
    (packSB i13 rs2 rs1 f3 opc).extractLsb' 20 5 = rs2 ∧
    (packSB i13 rs2 rs1 f3 opc).extractLsb' 25 6 = i13.extractLsb' 5 6 ∧
    (packSB i13 rs2 rs1 f3 opc).extractLsb' 31 1 = i13.extractLsb' 12 1 :=
  ⟨field_low, field_above field_low, field_above (field_above field_low),
    field_above (field_above (field_above field_low)),
    field_above (field_above (field_above (field_above field_low))),
    field_above (field_above (field_above (field_above (field_above field_low)))),
    field_above (field_above (field_above (field_above (field_above (field_above field_low))))),
    field_above (field_above (field_above (field_above (field_above (field_above (field_above
      BitVec.extractLsb'_eq_self))))))⟩

/-- Clearing bit 0 is not seen by a field above it. -/
theorem extractLsb'_clear_bit0 {start : Nat} (len : Nat) (h : 0 < start) :
    (i13 &&& ~~~1#13).extractLsb' start len = i13.extractLsb' start len := by
  ext k hk
  simpa [-BitVec.reduceNot] using fun hset => ⟨BitVec.lt_of_getLsbD hset, .inl h.ne'⟩

/-- `pack_SB` does not use bit 0 of the offset (R170). -/
theorem packSB_clear_bit0 : packSB (i13 &&& ~~~1#13) rs2 rs1 f3 opc = packSB i13 rs2 rs1 f3 opc := by
  simp only [packSB, extractLsb'_clear_bit0, Nat.succ_pos]

/-! ## The constant bits of a word -/

theorem packR_and_maskR : packR f7 rs2 rs1 f3 rd opc &&& maskR = packR f7 0#5 0#5 f3 0#5 opc := by
  have hmask : maskR = packR (.allOnes 7) 0#5 0#5 (.allOnes 3) 0#5 (.allOnes 7) := rfl
  rw [hmask]
  simp only [packR]
  iterate 5 rw [BitVec.and_append]
  simp only [BitVec.and_allOnes, BitVec.and_zero]

theorem packI_and_maskISB : packI i12 rs1 f3 rd opc &&& maskISB = packI 0#12 0#5 f3 0#5 opc := by
  have hmask : maskISB = packI 0#12 0#5 (.allOnes 3) 0#5 (.allOnes 7) := rfl
  rw [hmask]
  simp only [packI]
  iterate 4 rw [BitVec.and_append]
  simp only [BitVec.and_allOnes, BitVec.and_zero]

end

/-- Settles O24: each packer's fields; an S word has those of the R word it equals, and its two immediate parts are the
two parts of `i12`. -/
theorem packersPlaceEveryField : Obligations.PackersPlaceEveryField := by
  intro f7 opc f3 rd rs1 rs2 i12 i13
  have hsplit : i12.extractLsb' 5 7 ++ i12.extractLsb' 0 5 = i12 := BitVec.extractLsb'_append_extractLsb'
  simp [packS_eq_packR, packR_fields, packI_fields, packSB_fields, hsplit, packSB_clear_bit0, -BitVec.reduceNot]

/-! ## Words of classes R and I -/

section
variable {c : Config} {s : State} {i : Instr} {r0 r1 r2 : Token} {rd rs1 rs2 : RegIndex} {imm : Int}
  {f7 opc : BitVec 7} {f3 : BitVec 3}

/-- A value of the accepted range is formatted, under either policy (R60, R80 to R82). -/
theorem bin_of_accepts {w : Nat} {v : Int} (h : Accepts c w v) : bin c.policy v w = some (BitVec.ofInt w v) := by
  obtain hpol | hdom := h
  · rw [hpol, bin_truncate]
  · exact bin_of_inDomain c.policy ((inDomain_iff v w).mpr hdom)

theorem encodeR_of_knows (h0 : Knows c r0 rd) (h1 : Knows c r1 rs1) (h2 : Knows c r2 rs2) :
    encodeR c f7 f3 opc r0 r1 r2 = .ok (packR f7 rs2 rs1 f3 rd opc) := by
  rw [encodeR, withReg_of_some h0, withReg_of_some h1, withReg_of_some h2]

theorem encodeI_of_knows (h0 : Knows c r0 rd) (h1 : Knows c r1 rs1) (himm : Accepts c 12 imm) :
    encodeI c f3 opc r0 r1 imm = .ok (packI (BitVec.ofInt 12 imm) rs1 f3 rd opc) := by
  rw [encodeI, withReg_of_some h0, withReg_of_some h1, withImm_of_some (bin_of_accepts himm)]

/-- An instruction whose mnemonic has a row answers what the row's encoder gives (R107). -/
theorem answers_of_rowOf {row : RowConstants} {r : BlockResult} (hrow : s.cfg.tables.rowOf i.mnemonic.key = some row)
    (hr : encodeRow s.cfg row i.operands = r) : Answers i s r := by
  rw [← hr, ← encodeOperands_of_rowOf_some hrow]
  exact exec_eq i s

/-- Class R on known names (R121). -/
theorem answers_packR (hrow : s.cfg.tables.rowOf i.mnemonic.key = some (.R f7 f3 opc))
    (hops : i.operands = .rrr r0 r1 r2) (h0 : Knows s.cfg r0 rd) (h1 : Knows s.cfg r1 rs1)
    (h2 : Knows s.cfg r2 rs2) : Answers i s (.ok (packR f7 rs2 rs1 f3 rd opc)) :=
  answers_of_rowOf hrow (by rw [hops]; exact encodeR_of_knows h0 h1 h2)

/-- Class I on known names and an accepted immediate, in both operand forms (R141). -/
theorem answers_packI (hrow : s.cfg.tables.rowOf i.mnemonic.key = some (.I f3 opc))
    (hops : i.operands = .rri r0 r1 imm ∨ i.operands = .rm r0 r1 imm) (h0 : Knows s.cfg r0 rd)
    (h1 : Knows s.cfg r1 rs1) (himm : Accepts s.cfg 12 imm) :
    Answers i s (.ok (packI (BitVec.ofInt 12 imm) rs1 f3 rd opc)) := by
  refine answers_of_rowOf hrow ?_
  obtain hform | hform := hops <;> rw [hform] <;> exact encodeI_of_knows h0 h1 himm

end

/-- Settles O1: every configuration holds the rows of `add`, `addi` and `lw` (R61, R62), so their words are the
packers' on these constants. -/
theorem sourceGivenInstructions : Obligations.SourceGivenInstructions := by
  intro s
  obtain ⟨hadd, haddi, hlw, -, -⟩ := s.cfg.rows_of_tierS
  constructor
  · intro r0 r1 r2 rd rs1 rs2 h0 h1 h2
    exact ⟨_, rfl, packR_and_maskR .., answers_packR hadd rfl h0 h1 h2⟩
  · intro r0 r1 imm rd rs1 h0 h1 himm ops hops
    exact ⟨⟨_, rfl, packI_and_maskISB .., answers_packI haddi hops h0 h1 himm⟩,
      ⟨_, rfl, packI_and_maskISB .., answers_packI hlw hops h0 h1 himm⟩⟩

end Sys2Proof.Proofs.RFormat
end

section
/-! The block on operands, said once: which words each class encoder gives, and which error comes first
(`41_classifier_regdecoder.md` R104 to R109). -/

namespace Sys2Proof.Proofs.Block

open Sys2Proof.Machine Sys2Proof.Proofs.Classifier Sys2Proof.Proofs.RFormat

/-! ## The formatter, as acceptance -/

/-- The formatter answers exactly the accepted values, each with its `w`-bit vector (R60, R80 to R82). -/
theorem bin_eq_some_iff {c : Config} {v : Int} {w : Nat} {b : BitVec w} :
    bin c.policy v w = some b ↔ Accepts c w v ∧ b = BitVec.ofInt w v := by
  constructor
  · intro h
    refine ⟨?_, eq_ofInt_of_bin h⟩
    cases hp : c.policy with
    | truncate => exact .inl hp
    | error =>
      cases hd : inDomain v w with
      | true => exact .inr ((inDomain_iff v w).mp hd)
      | false => rw [hp, bin_error_of_not_inDomain hd] at h; cases h
  · rintro ⟨hacc, rfl⟩
    exact bin_of_accepts hacc

theorem bin_eq_none {c : Config} {v : Int} {w : Nat} (h : ¬ Accepts c w v) : bin c.policy v w = none :=
  Option.eq_none_iff_forall_ne_some.mpr fun _ hb => h (bin_eq_some_iff.mp hb).1

/-- Values `2^w` apart have one `w`-bit field (R60, R83). -/
theorem ofInt_add_two_pow (w : Nat) (v : Int) : BitVec.ofInt w (v + 2 ^ w) = BitVec.ofInt w v := by
  apply BitVec.eq_of_toInt_eq
  rw [BitVec.toInt_ofInt, BitVec.toInt_ofInt, ← Int.add_bmod_right v (2 ^ w)]
  norm_cast

theorem known_iff {c : Config} {name : Token} : ¬ Unknown c name ↔ ∃ r, Knows c name r := Option.ne_none_iff_exists'

/-! ## Two registers and an immediate: the shape of classes I, S and SB -/

/-- Look two names up, format the immediate, pack. -/
def encodeRegsImm (c : Config) (w : Nat) (pack : RegIndex → RegIndex → BitVec w → Word) (n0 n1 : Token) (v : Int) :
    BlockResult :=
  withReg c n0 .r0 fun a => withReg c n1 .r1 fun b => withImm c v w fun i => .ok (pack a b i)

section
variable {c : Config} {w : Nat} {pack : RegIndex → RegIndex → BitVec w → Word} {n0 n1 n2 : Token} {v : Int}
  {a b d : RegIndex} {f7 opc : BitVec 7} {f3 : BitVec 3}

theorem encodeRegsImm_unknown0 (h : Unknown c n0) :
    encodeRegsImm c w pack n0 n1 v = .err .unknownRegister .r0 := withReg_of_none h ..

theorem encodeRegsImm_unknown1 (h0 : Knows c n0 a) (h : Unknown c n1) :
    encodeRegsImm c w pack n0 n1 v = .err .unknownRegister .r1 := by
  rw [encodeRegsImm, withReg_of_some h0, withReg_of_none h]

theorem encodeRegsImm_rejected (h0 : Knows c n0 a) (h1 : Knows c n1 b) (h : ¬ Accepts c w v) :
    encodeRegsImm c w pack n0 n1 v = .err .malformedOperand .imm := by
  rw [encodeRegsImm, withReg_of_some h0, withReg_of_some h1, withImm_of_none (bin_eq_none h)]

theorem encodeRegsImm_ok (h0 : Knows c n0 a) (h1 : Knows c n1 b) (h : Accepts c w v) :
    encodeRegsImm c w pack n0 n1 v = .ok (pack a b (BitVec.ofInt w v)) := by
  rw [encodeRegsImm, withReg_of_some h0, withReg_of_some h1, withImm_of_some (bin_of_accepts h)]

theorem encodeRow_I_rri : encodeRow c (.I f3 opc) (.rri n0 n1 v) =
    encodeRegsImm c 12 (fun rd rs1 i12 => packI i12 rs1 f3 rd opc) n0 n1 v := rfl

theorem encodeRow_I_rm : encodeRow c (.I f3 opc) (.rm n0 n1 v) =
    encodeRegsImm c 12 (fun rd rs1 i12 => packI i12 rs1 f3 rd opc) n0 n1 v := rfl

theorem encodeRow_S_rm : encodeRow c (.S f3 opc) (.rm n0 n1 v) =
    encodeRegsImm c 12 (fun rs2 rs1 i12 => packS i12 rs2 rs1 f3 opc) n0 n1 v := rfl

theorem encodeRow_SB_rri : encodeRow c (.SB f3 opc) (.rri n0 n1 v) =
    encodeRegsImm c 13 (fun rs1 rs2 i13 => packSB i13 rs2 rs1 f3 opc) n0 n1 v := rfl

theorem encodeR_unknown0 (h : Unknown c n0) : encodeR c f7 f3 opc n0 n1 n2 = .err .unknownRegister .r0 :=
  withReg_of_none h ..

theorem encodeR_unknown1 (h0 : Knows c n0 a) (h : Unknown c n1) :
    encodeR c f7 f3 opc n0 n1 n2 = .err .unknownRegister .r1 := by
  rw [encodeR, withReg_of_some h0, withReg_of_none h]

theorem encodeR_unknown2 (h0 : Knows c n0 a) (h1 : Knows c n1 b) (h : Unknown c n2) :
    encodeR c f7 f3 opc n0 n1 n2 = .err .unknownRegister .r2 := by
  rw [encodeR, withReg_of_some h0, withReg_of_some h1, withReg_of_none h]

/-- Three registers have a word exactly where all three names are known. -/
theorem encodeR_eq_ok_iff {word : Word} : encodeR c f7 f3 opc n0 n1 n2 = .ok word ↔
    ∃ rd rs1 rs2, Knows c n0 rd ∧ Knows c n1 rs1 ∧ Knows c n2 rs2 ∧ packR f7 rs2 rs1 f3 rd opc = word := by
  constructor
  · intro h
    cases h0 : c.tables.regOf n0 with
    | none => cases (encodeR_unknown0 h0).symm.trans h
    | some rd =>
      cases h1 : c.tables.regOf n1 with
      | none => cases (encodeR_unknown1 h0 h1).symm.trans h
      | some rs1 =>
        cases h2 : c.tables.regOf n2 with
        | none => cases (encodeR_unknown2 h0 h1 h2).symm.trans h
        | some rs2 =>
          exact ⟨rd, rs1, rs2, h0, h1, h2, BlockResult.ok.inj ((encodeR_of_knows h0 h1 h2).symm.trans h)⟩
  · rintro ⟨rd, rs1, rs2, h0, h1, h2, rfl⟩
    exact encodeR_of_knows h0 h1 h2

/-- Two registers and an immediate have a word exactly where the names are known and the immediate is accepted. -/
theorem encodeRegsImm_eq_ok_iff {word : Word} : encodeRegsImm c w pack n0 n1 v = .ok word ↔
    ∃ a b, Knows c n0 a ∧ Knows c n1 b ∧ Accepts c w v ∧ pack a b (BitVec.ofInt w v) = word := by
  constructor
  · intro h
    cases h0 : c.tables.regOf n0 with
    | none => cases (encodeRegsImm_unknown0 h0).symm.trans h
    | some a =>
      cases h1 : c.tables.regOf n1 with
      | none => cases (encodeRegsImm_unknown1 h0 h1).symm.trans h
      | some b =>
        by_cases hacc : Accepts c w v
        · exact ⟨a, b, h0, h1, hacc, BlockResult.ok.inj ((encodeRegsImm_ok h0 h1 hacc).symm.trans h)⟩
        · cases (encodeRegsImm_rejected h0 h1 hacc).symm.trans h
  · rintro ⟨a, b, h0, h1, hacc, rfl⟩
    exact encodeRegsImm_ok h0 h1 hacc

end

/-! ## The choice by class and form -/

section
variable {c : Config} {row : RowConstants} {ops : Operands}

/-- A form the class does not take is malformed (R106). -/
theorem encodeRow_of_not_fits (h : ops.fits row.cls = false) :
    encodeRow c row ops = .err .malformedOperand .form := by
  cases row <;> cases ops <;> cases h <;> rfl

/-- The forms of two registers and an immediate, whatever the class. -/
theorem encodeRow_of_int {n0 n1 : Token} {v : Int} (h : ops.fits row.cls = true) (hnames : ops.names = [n0, n1])
    (hint : ops.int = some v) :
    ∃ pack, encodeRow c row ops = encodeRegsImm c row.cls.immWidth pack n0 n1 v := by
  -- `cases h` leaves the five pairs of R106
  cases row <;> cases ops <;> cases h
  case R.rrr => cases hint
  all_goals
    cases hnames
    cases hint
  · exact ⟨_, encodeRow_I_rri⟩
  · exact ⟨_, encodeRow_I_rm⟩
  · exact ⟨_, encodeRow_S_rm⟩
  · exact ⟨_, encodeRow_SB_rri⟩

/-- What a form that fits can be: three registers for class R, two registers and an immediate otherwise. -/
theorem shape_of_fits {cls : FormatClass} (h : ops.fits cls = true) :
    (∃ r0 r1 r2, cls = .R ∧ ops = .rrr r0 r1 r2) ∨ ∃ n0 n1 v, ops.names = [n0, n1] ∧ ops.int = some v := by
  cases cls <;> cases ops <;> cases h
  · exact .inl ⟨_, _, _, rfl, rfl⟩
  iterate 4 · exact .inr ⟨_, _, _, rfl, rfl⟩

end

/-! ## The words of a row of constants -/

/-- The words a row of constants has for operands, class by class (R121, R141, R161, R171). -/
inductive Encodes (c : Config) : RowConstants → Operands → Word → Prop
  | R {f7 f3 opc r0 r1 r2 rd rs1 rs2} (h0 : Knows c r0 rd) (h1 : Knows c r1 rs1) (h2 : Knows c r2 rs2) :
      Encodes c (.R f7 f3 opc) (.rrr r0 r1 r2) (packR f7 rs2 rs1 f3 rd opc)
  | I {f3 opc r0 r1 imm rd rs1 ops} (hops : ops = .rri r0 r1 imm ∨ ops = .rm r0 r1 imm) (h0 : Knows c r0 rd)
      (h1 : Knows c r1 rs1) (himm : Accepts c 12 imm) :
      Encodes c (.I f3 opc) ops (packI (BitVec.ofInt 12 imm) rs1 f3 rd opc)
  | S {f3 opc r0 base offset rs2 rs1} (h0 : Knows c r0 rs2) (h1 : Knows c base rs1) (himm : Accepts c 12 offset) :
      Encodes c (.S f3 opc) (.rm r0 base offset) (packS (BitVec.ofInt 12 offset) rs2 rs1 f3 opc)
  | SB {f3 opc r0 r1 offset rs1 rs2} (h0 : Knows c r0 rs1) (h1 : Knows c r1 rs2) (himm : Accepts c 13 offset) :
      Encodes c (.SB f3 opc) (.rri r0 r1 offset) (packSB (BitVec.ofInt 13 offset) rs2 rs1 f3 opc)

/-- The block answers a word exactly as `Encodes` says. -/
theorem encodeRow_eq_ok_iff {c : Config} {row : RowConstants} {ops : Operands} {word : Word} :
    encodeRow c row ops = .ok word ↔ Encodes c row ops word := by
  constructor
  · intro h
    cases hfit : ops.fits row.cls with
    | false => cases (encodeRow_of_not_fits hfit).symm.trans h
    | true =>
      -- `cases hfit` leaves the five pairs of R106
      cases row <;> cases ops <;> cases hfit
      · obtain ⟨rd, rs1, rs2, h0, h1, h2, rfl⟩ := encodeR_eq_ok_iff.mp h
        exact .R h0 h1 h2
      · obtain ⟨rd, rs1, h0, h1, himm, rfl⟩ := encodeRegsImm_eq_ok_iff.mp h
        exact .I (.inl rfl) h0 h1 himm
      · obtain ⟨rd, rs1, h0, h1, himm, rfl⟩ := encodeRegsImm_eq_ok_iff.mp h
        exact .I (.inr rfl) h0 h1 himm
      · obtain ⟨rs2, rs1, h0, h1, himm, rfl⟩ := encodeRegsImm_eq_ok_iff.mp h
        exact .S h0 h1 himm
      · obtain ⟨rs1, rs2, h0, h1, himm, rfl⟩ := encodeRegsImm_eq_ok_iff.mp h
        exact .SB h0 h1 himm
  · intro h
    cases h with
    | R h0 h1 h2 => exact encodeR_of_knows h0 h1 h2
    | I hops h0 h1 himm => obtain rfl | rfl := hops <;> exact encodeI_of_knows h0 h1 himm
    | S h0 h1 himm => exact encodeRegsImm_ok h0 h1 himm
    | SB h0 h1 himm => exact encodeRegsImm_ok h0 h1 himm

/-! ### What operands with a word look like -/

section
variable {c : Config} {row : RowConstants} {ops : Operands} {word : Word}

theorem fits_of_encodes (h : Encodes c row ops word) : ops.fits row.cls = true := by
  cases h with
  | R => rfl
  | I hops => obtain rfl | rfl := hops <;> rfl
  | S => rfl
  | SB => rfl

theorem knows_of_encodes (h : Encodes c row ops word) : ∀ name ∈ ops.names, ∃ r, Knows c name r := by
  cases h with
  | R h0 h1 h2 => simpa [Operands.names] using ⟨⟨_, h0⟩, ⟨_, h1⟩, ⟨_, h2⟩⟩
  | I hops h0 h1 => obtain rfl | rfl := hops <;> simpa [Operands.names] using ⟨⟨_, h0⟩, ⟨_, h1⟩⟩
  | S h0 h1 => simpa [Operands.names] using ⟨⟨_, h0⟩, ⟨_, h1⟩⟩
  | SB h0 h1 => simpa [Operands.names] using ⟨⟨_, h0⟩, ⟨_, h1⟩⟩

theorem accepts_of_encodes (h : Encodes c row ops word) : ∀ v, ops.int = some v → Accepts c row.cls.immWidth v := by
  cases h with
  | R => exact nofun
  | I hops _ _ himm => obtain rfl | rfl := hops <;> exact fun v hv => Option.some.inj hv ▸ himm
  | S _ _ himm => exact fun v hv => Option.some.inj hv ▸ himm
  | SB _ _ himm => exact fun v hv => Option.some.inj hv ▸ himm

end

/-- A word of the block comes from the mnemonic's row. -/
theorem encodeOperands_eq_ok_iff {c : Config} {mn : Token} {ops : Operands} {word : Word} :
    encodeOperands c mn ops = .ok word ↔ ∃ row, c.tables.rowOf mn = some row ∧ Encodes c row ops word := by
  cases hrow : c.tables.rowOf mn with
  | none => simp [encodeOperands_of_rowOf_none hrow]
  | some row => simp [encodeOperands_of_rowOf_some hrow, encodeRow_eq_ok_iff]

/-- An instruction answers exactly the block's outcome for its mnemonic and operands. -/
theorem answers_iff {i : Instr} {s : State} {r : BlockResult} :
    Answers i s r ↔ encodeOperands s.cfg i.mnemonic.key i.operands = r := by
  constructor
  · intro h
    have hstate := Host.Outcome.next.inj ((exec_eq i s).symm.trans h)
    exact Option.some.inj (congrArg State.resp hstate)
  · rintro rfl
    exact exec_eq i s

/-- A configuration that knows all rows and names of another and accepts all its immediates has all its words. -/
theorem encodeOperands_ok_mono {c c' : Config}
    (hrow : ∀ mn row, c.tables.rowOf mn = some row → c'.tables.rowOf mn = some row)
    (hreg : ∀ name r, Knows c name r → Knows c' name r) (hacc : ∀ w v, Accepts c w v → Accepts c' w v)
    {mn : Token} {ops : Operands} {word : Word} (h : encodeOperands c mn ops = .ok word) :
    encodeOperands c' mn ops = .ok word := by
  obtain ⟨row, hr, henc⟩ := encodeOperands_eq_ok_iff.mp h
  refine encodeOperands_eq_ok_iff.mpr ⟨row, hrow _ _ hr, ?_⟩
  cases henc with
  | R h0 h1 h2 => exact .R (hreg _ _ h0) (hreg _ _ h1) (hreg _ _ h2)
  | I hops h0 h1 himm => exact .I hops (hreg _ _ h0) (hreg _ _ h1) (hacc _ _ himm)
  | S h0 h1 himm => exact .S (hreg _ _ h0) (hreg _ _ h1) (hacc _ _ himm)
  | SB h0 h1 himm => exact .SB (hreg _ _ h0) (hreg _ _ h1) (hacc _ _ himm)

end Sys2Proof.Proofs.Block
end

section
/-! The opcode table against the five default tables (`30_encoding.md` R67, R69): every word of the block has the
constant bits of its own row and of no other. -/

namespace Sys2Proof.Proofs.OpcodeTable

open Sys2Proof.Machine Sys2Proof.Laws.OpcodeRow Sys2Proof.Proofs.Classifier Sys2Proof.Proofs.RFormat
  Sys2Proof.Proofs.Block

/-! ## The rows -/

/-- The mask of the rows of a class (R63 to R66). -/
def classMask : FormatClass → Word
  | .R => maskR
  | .I => maskISB
  | .S => maskISB
  | .SB => maskISB

theorem mask_eq_classMask : ∀ r ∈ opcodeRows, r.mask = classMask r.cls := by decide +kernel

theorem of_mn_eq : ∀ r ∈ opcodeRows, OpcodeRow.of r.mn = some r := by decide +kernel

/-- Two rows whose patterns agree where both masks are set are one row. -/
theorem row_eq_of_patterns_agree : ∀ r ∈ opcodeRows, ∀ r' ∈ opcodeRows,
    r.pattern &&& r'.mask = r'.pattern &&& r.mask → r = r' := by decide +kernel

/-- Settles O26: a word with the constant bits of both rows makes their patterns agree. -/
theorem opcodeRowsAreDisjoint : Obligations.OpcodeRowsAreDisjoint := by
  intro r hr r' hr' w hfit hfit'
  have hw : w &&& r.mask = r.pattern := beq_iff_eq.mp hfit
  have hw' : w &&& r'.mask = r'.pattern := beq_iff_eq.mp hfit'
  refine row_eq_of_patterns_agree r hr r' hr' ?_
  rw [← hw, ← hw', BitVec.and_assoc, BitVec.and_comm r.mask, BitVec.and_assoc]

/-- The row the decoder finds is the row whose constant bits the word has. -/
theorem find?_fits {r : OpcodeRow} {w : Word} (hr : r ∈ opcodeRows) (hfit : r.fits w = true) :
    opcodeRows.find? (fun r => r.fits w) = some r := by
  have hsome : (opcodeRows.find? (fun r => r.fits w)).isSome = true := List.find?_isSome.mpr ⟨r, hr, hfit⟩
  obtain ⟨r', hr'⟩ := Option.isSome_iff_exists.mp hsome
  have hfit' : r'.fits w = true := by simpa using List.find?_some hr'
  rw [hr', opcodeRowsAreDisjoint r' (List.mem_of_find?_eq_some hr') r hr w hfit' hfit]

/-- The row of a mnemonic stands in both tables: as mask and pattern, and as the constants of the five tables. -/
structure RowOf (m : Mnemonic) (r : OpcodeRow) (row : RowConstants) : Prop where
  mem : r ∈ opcodeRows
  mn : r.mn = m
  constants : Tables.defaultInstance.rowOf m.key = some row
  cls : row.cls = r.cls
  pattern : r.pattern = constantBits row

theorem exists_rowOf (m : Mnemonic) : ∃ r row, RowOf m r row := by
  obtain ⟨r, hr, hmn, hmap⟩ := statement_of_mem (m.instr .reserved) (Mnemonic.mem_all _)
  rw [Mnemonic.instr_mnemonic] at hmn hmap
  obtain ⟨row, hrow, heq⟩ := Option.map_eq_some_iff.mp hmap
  obtain ⟨hcls, hpat⟩ := Prod.mk.inj heq
  exact ⟨r, row, hr, hmn, hrow, hcls, hpat.symm⟩

theorem RowOf.of_eq {m : Mnemonic} {r : OpcodeRow} {row : RowConstants} (h : RowOf m r row) :
    OpcodeRow.of m = some r := h.mn ▸ of_mn_eq r h.mem

theorem RowOf.fits_iff {m : Mnemonic} {r : OpcodeRow} {row : RowConstants} (h : RowOf m r row) (w : Word) :
    r.fits w = true ↔ w &&& classMask row.cls = constantBits row := by
  rw [OpcodeRow.fits, beq_iff_eq, mask_eq_classMask r h.mem, h.cls, h.pattern]

/-! ## The constant bits of every word -/

section
variable {f7 opc : BitVec 7} {f3 : BitVec 3} {rd rs1 rs2 : RegIndex} {i12 : BitVec 12} {i13 : BitVec 13}

/-- The constants alone are the R word with no operand bits. -/
theorem constantBits_R : constantBits (.R f7 f3 opc) = packR f7 0#5 0#5 f3 0#5 opc := by
  rw [packR_eq_or]
  exact (BitVec.or_zero).symm

theorem constantBits_I : constantBits (.I f3 opc) = packI 0#12 0#5 f3 0#5 opc := by
  rw [packI_eq_or]
  exact (BitVec.or_zero).symm

theorem constantBits_SB : constantBits (.SB f3 opc) = packSB 0#13 0#5 0#5 f3 opc := by
  rw [packSB_eq_or]
  exact (BitVec.or_zero).symm

/-- Under the narrower mask funct7 and rs2 are one field of 12 bits. -/
theorem packR_and_maskISB : packR f7 rs2 rs1 f3 rd opc &&& maskISB = packI 0#12 0#5 f3 0#5 opc :=
  packI_and_maskISB (i12 := f7 ++ rs2) ..

theorem packSB_and_maskISB : packSB i13 rs2 rs1 f3 opc &&& maskISB = packSB 0#13 0#5 0#5 f3 opc := by
  have hmask : maskISB = packSB 0#13 0#5 0#5 (.allOnes 3) (.allOnes 7) := rfl
  rw [hmask]
  simp only [packSB]
  iterate 7 rw [BitVec.and_append]
  simp only [BitVec.extractLsb'_zero, BitVec.and_allOnes, BitVec.and_zero]

end

/-- A word of a row of constants has the constant bits of that row. -/
theorem constantBits_of_encodes {c : Config} {row : RowConstants} {ops : Operands} {w : Word}
    (h : Encodes c row ops w) : w &&& classMask row.cls = constantBits row := by
  cases h with
  | R => exact (packR_and_maskR ..).trans constantBits_R.symm
  | I => exact (packI_and_maskISB ..).trans constantBits_I.symm
  | S => exact packR_and_maskISB.trans constantBits_I.symm
  | SB => exact packSB_and_maskISB.trans constantBits_SB.symm

/-- With the default tables a word for a mnemonic has the constant bits of the mnemonic's row. -/
theorem RowOf.fits_of_encodeOperands {m : Mnemonic} {r : OpcodeRow} {row : RowConstants} (h : RowOf m r row)
    {c : Config} {ops : Operands} {w : Word} (hc : c.tables = Tables.defaultInstance)
    (hw : encodeOperands c m.key ops = .ok w) : r.fits w = true := by
  obtain ⟨row', hrow', henc⟩ := encodeOperands_eq_ok_iff.mp hw
  rw [hc, h.constants] at hrow'
  cases hrow'
  exact (h.fits_iff w).mpr (constantBits_of_encodes henc)

/-- Every row ends in `11`, and its mask covers those two bits (R69). -/
theorem low_bits_of_rows : ∀ r ∈ opcodeRows, r.mask.extractLsb' 0 2 = 0b11#2 ∧ r.pattern.extractLsb' 0 2 = 0b11#2 := by
  decide +kernel

theorem low_bits_of_fits {r : OpcodeRow} {w : Word} (hr : r ∈ opcodeRows) (hfit : r.fits w = true) :
    w.extractLsb' 0 2 = 0b11#2 := by
  obtain ⟨hmask, hpat⟩ := low_bits_of_rows r hr
  have hw : w &&& r.mask = r.pattern := beq_iff_eq.mp hfit
  rw [← hw, BitVec.extractLsb'_and, hmask] at hpat
  rwa [show (0b11#2) = BitVec.allOnes 2 from rfl, BitVec.and_allOnes] at hpat

/-- Settles O11: the word has its own row's constant bits, and by disjointness no other row's. -/
theorem wordCarriesItsOwnRow : Obligations.WordCarriesItsOwnRow := by
  intro i s w htables hans
  obtain ⟨r, row, hrow⟩ := exists_rowOf i.mnemonic
  have hfit : r.fits w = true := hrow.fits_of_encodeOperands htables (answers_iff.mp hans)
  refine ⟨fun r' hr' => ⟨fun hfit' => ?_, fun hmn => ?_⟩, low_bits_of_fits hrow.mem hfit⟩
  · rw [opcodeRowsAreDisjoint r' hr' r hrow.mem w hfit' hfit, hrow.mn]
  · have hof : OpcodeRow.of i.mnemonic = some r' := hmn ▸ of_mn_eq r' hr'
    rw [hrow.of_eq] at hof
    exact Option.some.inj hof ▸ hfit

/-! ## The invariant of a run (O37 rests on it) -/

/-- With the default tables only mnemonics of the opcode table have a class. -/
theorem exists_mnemonic_of_classOf {mn : Token} {cls : FormatClass}
    (h : Tables.defaultInstance.classOf mn = some cls) : ∃ m : Mnemonic, m.key = mn := by
  have hkeys : ∀ entry ∈ Tables.defaultInstance.fmt, (Mnemonic.ofKey entry.1).isSome = true := by decide +kernel
  obtain ⟨m, hm⟩ := Option.isSome_iff_exists.mp (hkeys _ (mem_of_lookup h))
  exact ⟨m, Mnemonic.key_of_ofKey hm⟩

/-- With the default tables every outcome of the block is a word of the opcode table or an error (R67). -/
theorem encodeFields_sound {c : Config} (hc : c.tables = Tables.defaultInstance) (q : HwReq) :
    (encodeFields c q).Sound := by
  cases hw : encodeFields c q with
  | err kind slot => trivial
  | ok w =>
    obtain ⟨row, hrow, -⟩ := encodeOperands_eq_ok_iff.mp hw
    obtain ⟨m, hm⟩ := exists_mnemonic_of_classOf (hc ▸ Tables.classOf_of_rowOf hrow)
    obtain ⟨r, row, hrowOf⟩ := exists_rowOf m
    exact ⟨r, hrowOf.mem, hrowOf.fits_of_encodeOperands hc (by rw [hm]; exact hw)⟩

/-- A line's outcome is empty, the text of a word of the table, or an error (R93). -/
theorem encodeInstruction_sound {c : Config} (hc : c.tables = Tables.defaultInstance) (l : Line) :
    (encodeInstruction c l).Sound := by
  cases hl : encodeInstruction c l with
  | err e => trivial
  | ok text =>
    obtain ⟨-, hblank⟩ | ⟨q, ops, w, -, hw, htext⟩ := (FrontEnd.encodeInstruction_eq_ok_iff c l text).mp hl
    · exact .inl hblank
    · have hsound := encodeFields_sound hc q
      rw [hw] at hsound
      exact .inr ⟨w, hsound, htext⟩

theorem errorCode_ne_zero (kind : ErrorKind) : errorCode kind ≠ 0 := by cases kind <;> decide

/-- Status 0 on the wires comes with a word of the table (R32). -/
theorem rvEncoder_sound {c : Config} (hc : c.tables = Tables.defaultInstance) (p : PortIn) :
    wiresSound (rvEncoder c p) := by
  intro hvalid hstatus
  have hreq : p.reqValid = true := hvalid
  have hsound := encodeFields_sound hc (portRequest p)
  rw [rvEncoder, if_pos hreq] at hstatus ⊢
  cases hr : encodeFields c (portRequest p) with
  | ok w => rw [hr] at hsound; exact hsound
  | err kind slot => rw [hr] at hstatus; exact absurd hstatus (errorCode_ne_zero kind)

theorem outcome_sound {c : Config} (hc : c.tables = Tables.defaultInstance) (x : Input) : (outcome c x).Sound := by
  cases x with
  | line l => exact encodeInstruction_sound hc l
  | request q => exact encodeFields_sound hc q
  | classify mn => trivial
  | wires p => exact rvEncoder_sound hc p

/-- The response to an input is the block's outcome for some request. -/
theorem exists_request_of_responseTo {c : Config} {x : Input} {r : BlockResult} (h : responseTo c x = some r) :
    ∃ q, encodeFields c q = r := by
  cases x with
  | line l =>
    cases hf : frontEnd c l with
    | blank => simp [responseTo, hf] at h
    | fail kind token => simp [responseTo, hf] at h
    | request q ops => exact ⟨q, by simpa [responseTo, hf] using h⟩
  | request q => exact ⟨q, Option.some.inj h⟩
  | classify mn => cases h
  | wires p => exact ⟨portRequest p, Option.some.inj (Option.ite_none_right_eq_some.mp h).2⟩

/-- Settles O37: a step adds at most one outcome, which is sound whatever the input was. -/
theorem stepKeepsTheInvariant : Obligations.StepKeepsTheInvariant := by
  intro s t hinv hstep
  obtain ⟨htables, -, houts⟩ := hinv
  cases hs : s.inputs with
  | nil =>
    cases (step_nil hs).symm.trans hstep
    exact ⟨htables, nofun, houts⟩
  | cons x rest =>
    cases (step_cons hs).symm.trans hstep
    refine ⟨htables, fun r hr => ?_, fun o ho => ?_⟩
    · obtain ⟨q, rfl⟩ := exists_request_of_responseTo hr
      exact encodeFields_sound htables q
    · obtain ho | ho := List.mem_append.mp ho
      · exact houts o ho
      · rw [List.mem_singleton.mp ho]
        exact outcome_sound htables x

/-- Settles O36. -/
theorem resetMeetsTheInvariant : Obligations.ResetMeetsTheInvariant := ⟨rfl, nofun, nofun⟩

end Sys2Proof.Proofs.OpcodeTable
end

section
/-! The encoder made of the opcode table against the machine, and the round trip through the decoder
(`30_encoding.md` R51 to R67). -/

namespace Sys2Proof.Proofs.RoundTrip

open Sys2Proof.Machine Sys2Proof.Laws.OpcodeRow Sys2Proof.Proofs.Classifier Sys2Proof.Proofs.RFormat
  Sys2Proof.Proofs.Block Sys2Proof.Proofs.OpcodeTable

/-! ## The encoder of the opcode table -/

theorem regIndex_eq_some_iff {name : Token} {r : RegIndex} :
    regIndex name = some r ↔ Knows .defaultInstance name r := Iff.rfl

theorem immField_eq_some_iff {v : Int} {w : Nat} {b : BitVec w} :
    immField v w = some b ↔ Accepts .defaultInstance w v ∧ b = BitVec.ofInt w v :=
  bin_eq_some_iff (c := .defaultInstance)

/-- The operand bits laid into the constant bits of a row are the word the block packs (R52 to R55). -/
theorem operandBits_iff_encodes {row : RowConstants} {ops : Operands} {w : Word} :
    (∃ bits, operandBits row.cls ops = some bits ∧ constantBits row ||| bits = w) ↔
      Encodes .defaultInstance row ops w := by
  constructor
  · rintro ⟨bits, hbits, rfl⟩
    cases row <;> cases ops <;>
      simp only [RowConstants.cls, operandBits, reduceCtorEq, Option.bind_eq_bind, Option.bind_eq_some_iff,
        Option.some.injEq, immField_eq_some_iff, regIndex_eq_some_iff] at hbits
    · obtain ⟨rd, h0, rs1, h1, rs2, h2, rfl⟩ := hbits
      exact packR_eq_or .. ▸ .R h0 h1 h2
    · obtain ⟨rd, h0, rs1, h1, i12, ⟨himm, rfl⟩, rfl⟩ := hbits
      exact packI_eq_or .. ▸ .I (.inl rfl) h0 h1 himm
    · obtain ⟨rd, h0, rs1, h1, i12, ⟨himm, rfl⟩, rfl⟩ := hbits
      exact packI_eq_or .. ▸ .I (.inr rfl) h0 h1 himm
    · obtain ⟨rs1, h1, rs2, h0, i12, ⟨himm, rfl⟩, rfl⟩ := hbits
      exact packS_eq_or .. ▸ .S h0 h1 himm
    · obtain ⟨rs1, h0, rs2, h1, i13, ⟨himm, rfl⟩, rfl⟩ := hbits
      exact packSB_eq_or .. ▸ .SB h0 h1 himm
  · intro h
    cases h with
    | R h0 h1 h2 =>
      refine ⟨placeR .., ?_, (packR_eq_or ..).symm⟩
      simp only [RowConstants.cls, operandBits, regIndex_eq_some_iff.mpr h0, regIndex_eq_some_iff.mpr h1,
        regIndex_eq_some_iff.mpr h2, Option.bind_eq_bind, Option.bind_some]
    | I hops h0 h1 himm =>
      refine ⟨placeI .., ?_, (packI_eq_or ..).symm⟩
      obtain rfl | rfl := hops <;>
        simp only [RowConstants.cls, operandBits, regIndex_eq_some_iff.mpr h0, regIndex_eq_some_iff.mpr h1,
          immField_eq_some_iff.mpr ⟨himm, rfl⟩, Option.bind_eq_bind, Option.bind_some]
    | S h0 h1 himm =>
      refine ⟨placeS .., ?_, (packS_eq_or ..).symm⟩
      simp only [RowConstants.cls, operandBits, regIndex_eq_some_iff.mpr h0, regIndex_eq_some_iff.mpr h1,
        immField_eq_some_iff.mpr ⟨himm, rfl⟩, Option.bind_eq_bind, Option.bind_some]
    | SB h0 h1 himm =>
      refine ⟨placeSB .., ?_, (packSB_eq_or ..).symm⟩
      simp only [RowConstants.cls, operandBits, regIndex_eq_some_iff.mpr h0, regIndex_eq_some_iff.mpr h1,
        immField_eq_some_iff.mpr ⟨himm, rfl⟩, Option.bind_eq_bind, Option.bind_some]

/-- The encoder of the opcode table gives the words of the block of the default tables and policy. -/
theorem encode_eq_some_iff {i : Instr} {w : Word} :
    encode i = some w ↔ encodeOperands .defaultInstance i.mnemonic.key i.operands = .ok w := by
  obtain ⟨r, row, hrow⟩ := exists_rowOf i.mnemonic
  have hencode : encode i = some w ↔
      ∃ bits, operandBits row.cls i.operands = some bits ∧ constantBits row ||| bits = w := by
    simp [encode, hrow.of_eq, hrow.cls, hrow.pattern, Option.bind_eq_some_iff]
  rw [hencode, operandBits_iff_encodes, encodeOperands_of_rowOf_some hrow.constants, encodeRow_eq_ok_iff]

/-- Settles O29. -/
theorem machineAgreesWithTheOpcodeTable : Obligations.MachineAgreesWithTheOpcodeTable := by
  intro i s w hcfg
  rw [answers_iff, encode_eq_some_iff, hcfg]

/-! ## Decoding an encoded instruction -/

/-- A word with the constant bits of a mnemonic's row decodes to that mnemonic on the row's operands. -/
theorem decodeWord_of_fits {r : OpcodeRow} {w : Word} (hr : r ∈ opcodeRows) (hfit : r.fits w = true) :
    decodeWord w = .ok (r.mn.instr (r.operands w)) := by
  rw [decodeWord, find?_fits hr hfit]

theorem exists_row_of_decodeWord {w : Word} {i : Instr} (h : decodeWord w = .ok i) :
    ∃ r ∈ opcodeRows, r.fits w = true ∧ i = r.mn.instr (r.operands w) := by
  unfold decodeWord at h
  split at h
  · rename_i r hfind
    exact ⟨r, List.mem_of_find?_eq_some hfind, by simpa using List.find?_some hfind, (Except.ok.inj h).symm⟩
  · cases h

theorem canonName_of_knows {name : Token} {r : RegIndex} (h : Knows .defaultInstance name r) :
    canonName name = xName r := by
  rw [canonName, regIndex_eq_some_iff.mpr h]

section
variable {f7 opc : BitVec 7} {f3 : BitVec 3} {rd rs1 rs2 : RegIndex} {i12 : BitVec 12} {i13 : BitVec 13}

theorem operandFields_packR : fieldRd (packR f7 rs2 rs1 f3 rd opc) = rd ∧
    fieldRs1 (packR f7 rs2 rs1 f3 rd opc) = rs1 ∧ fieldRs2 (packR f7 rs2 rs1 f3 rd opc) = rs2 :=
  have ⟨_, hrd, _, hrs1, hrs2, _⟩ := packR_fields f7 opc f3 rd rs1 rs2
  ⟨hrd, hrs1, hrs2⟩

theorem operandFields_packI : fieldRd (packI i12 rs1 f3 rd opc) = rd ∧
    fieldRs1 (packI i12 rs1 f3 rd opc) = rs1 ∧ fieldImmI (packI i12 rs1 f3 rd opc) = i12 :=
  have ⟨_, hrd, _, hrs1, himm⟩ := packI_fields opc f3 rd rs1 i12
  ⟨hrd, hrs1, himm⟩

/-- The two parts of an S immediate are put together again (R58). -/
theorem operandFields_packS : fieldRs1 (packS i12 rs2 rs1 f3 opc) = rs1 ∧
    fieldRs2 (packS i12 rs2 rs1 f3 opc) = rs2 ∧ fieldImmS (packS i12 rs2 rs1 f3 opc) = i12 := by
  obtain ⟨-, hlow, -, hrs1, hrs2, hhigh⟩ :=
    packR_fields (i12.extractLsb' 5 7) opc f3 (i12.extractLsb' 0 5) rs1 rs2
  rw [packS_eq_packR, fieldImmS, hlow, hhigh]
  exact ⟨hrs1, hrs2, BitVec.extractLsb'_append_extractLsb'⟩

/-- The four parts of an SB offset with a 0 below them are the offset with bit 0 clear. -/
theorem offset_of_parts : i13.extractLsb' 12 1 ++ i13.extractLsb' 11 1 ++ i13.extractLsb' 5 6 ++ i13.extractLsb' 1 4 ++
    0#1 = i13 &&& ~~~1#13 := by
  apply BitVec.eq_of_getLsbD_eq
  intro k hk
  simp only [BitVec.getLsbD_append, BitVec.getLsbD_extractLsb', BitVec.getLsbD_and]
  interval_cases k <;> simp

/-- The four parts of an SB offset are put together again, bit 0 clear (R59, R170). -/
theorem operandFields_packSB : fieldRs1 (packSB i13 rs2 rs1 f3 opc) = rs1 ∧
    fieldRs2 (packSB i13 rs2 rs1 f3 opc) = rs2 ∧ fieldImmSB (packSB i13 rs2 rs1 f3 opc) = i13 &&& ~~~1#13 := by
  obtain ⟨-, h11, h4, -, hrs1, hrs2, h10, h12⟩ := packSB_fields opc f3 rs1 rs2 i13
  rw [fieldImmSB, h11, h4, h10, h12]
  exact ⟨hrs1, hrs2, offset_of_parts⟩

end

/-- The operands read off a word of a row are the ones that gave it, in the decoder's spelling. -/
theorem operands_of_encodes {r : OpcodeRow} {row : RowConstants} {ops : Operands} {w : Word}
    (hcls : row.cls = r.cls) (h : Encodes .defaultInstance row ops w) : r.operands w = r.canon ops := by
  cases h with
  | R h0 h1 h2 =>
    simp only [OpcodeRow.operands, OpcodeRow.canon, hcls.symm, RowConstants.cls, operandFields_packR,
      canonName_of_knows h0, canonName_of_knows h1, canonName_of_knows h2]
  | I hops h0 h1 =>
    obtain rfl | rfl := hops <;>
      simp only [OpcodeRow.operands, OpcodeRow.canon, hcls.symm, RowConstants.cls, operandFields_packI,
        canonName_of_knows h0, canonName_of_knows h1, canonImm, modBits_eq_ofInt]
  | S h0 h1 =>
    simp only [OpcodeRow.operands, OpcodeRow.canon, hcls.symm, RowConstants.cls, operandFields_packS,
      canonName_of_knows h0, canonName_of_knows h1, canonImm, modBits_eq_ofInt]
  | SB h0 h1 =>
    simp only [OpcodeRow.operands, OpcodeRow.canon, hcls.symm, RowConstants.cls, operandFields_packSB,
      canonName_of_knows h0, canonName_of_knows h1, canonOffset, modBits_eq_ofInt]

/-- Settles O27: the word has its row's constant bits, so the decoder finds that row and reads the operands back. -/
theorem decodingAnEncodedInstruction : Obligations.DecodingAnEncodedInstruction := by
  intro i w h
  have hw := encode_eq_some_iff.mp h
  obtain ⟨r, row, hrow⟩ := exists_rowOf i.mnemonic
  have henc : Encodes .defaultInstance row i.operands w := by
    rwa [encodeOperands_of_rowOf_some hrow.constants, encodeRow_eq_ok_iff] at hw
  rw [decodeWord_of_fits hrow.mem (hrow.fits_of_encodeOperands rfl hw), operands_of_encodes hrow.cls henc, hrow.mn,
    Instr.canon, hrow.of_eq]

/-! ## Encoding a decoded word -/

/-- Every numeric name is known, with its own index (R25). -/
theorem knows_xName : ∀ r : RegIndex, Knows .defaultInstance (xName r) r := by
  unfold Knows
  decide +kernel

/-- What reads back from a field is accepted by the field, and is written into it again (R60, R83). -/
theorem accepts_toInt {c : Config} {w : Nat} (b : BitVec w) : Accepts c w b.toInt := by
  have hlow := BitVec.le_two_mul_toInt (x := b)
  have hhigh := BitVec.two_mul_toInt_lt (x := b)
  have hpos : (0 : Int) < 2 ^ w := by positivity
  exact .inr ⟨by linarith, by linarith⟩

section
variable (w : Word)

/-- A word is the R word of its fields. -/
theorem packR_of_fields : packR (w.extractLsb' 25 7) (fieldRs2 w) (fieldRs1 w) (w.extractLsb' 12 3) (fieldRd w)
    (w.extractLsb' 0 7) = w := by
  apply BitVec.eq_of_getLsbD_eq
  intro k hk
  simp only [packR, fieldRs2, fieldRs1, fieldRd, BitVec.getLsbD_append, BitVec.getLsbD_extractLsb']
  interval_cases k <;> simp

/-- A word is the I word of its fields. -/
theorem packI_of_fields :
    packI (fieldImmI w) (fieldRs1 w) (w.extractLsb' 12 3) (fieldRd w) (w.extractLsb' 0 7) = w := by
  apply BitVec.eq_of_getLsbD_eq
  intro k hk
  simp only [packI, fieldImmI, fieldRs1, fieldRd, BitVec.getLsbD_append, BitVec.getLsbD_extractLsb']
  interval_cases k <;> simp

/-- A word is the S word of its fields. -/
theorem packS_of_fields :
    packS (fieldImmS w) (fieldRs2 w) (fieldRs1 w) (w.extractLsb' 12 3) (w.extractLsb' 0 7) = w := by
  have hhigh : (fieldImmS w).extractLsb' 5 7 = w.extractLsb' 25 7 := field_above BitVec.extractLsb'_eq_self
  have hlow : (fieldImmS w).extractLsb' 0 5 = fieldRd w := field_low
  rw [packS_eq_packR, hhigh, hlow, packR_of_fields]

/-- A word is the SB word of its fields. -/
theorem packSB_of_fields :
    packSB (fieldImmSB w) (fieldRs2 w) (fieldRs1 w) (w.extractLsb' 12 3) (w.extractLsb' 0 7) = w := by
  apply BitVec.eq_of_getLsbD_eq
  intro k hk
  simp only [packSB, fieldImmSB, fieldRs2, fieldRs1, BitVec.getLsbD_append, BitVec.getLsbD_extractLsb']
  interval_cases k <;> simp

end

/-- The constants of a word that has the constant bits of a row of class R are the row's. -/
theorem constants_R {w : Word} {f7 opc : BitVec 7} {f3 : BitVec 3} (h : w &&& maskR = constantBits (.R f7 f3 opc)) :
    w.extractLsb' 25 7 = f7 ∧ w.extractLsb' 12 3 = f3 ∧ w.extractLsb' 0 7 = opc := by
  rw [constantBits_R, ← packR_of_fields w, packR_and_maskR] at h
  have hf7 := congrArg (BitVec.extractLsb' 25 7) h
  have hf3 := congrArg (BitVec.extractLsb' 12 3) h
  have hopc := congrArg (BitVec.extractLsb' 0 7) h
  simp only [packR_fields] at hf7 hf3 hopc
  exact ⟨hf7, hf3, hopc⟩

/-- The same for the other classes, whose rows fix funct3 and opcode alone. -/
theorem constants_ISB {w : Word} {opc : BitVec 7} {f3 : BitVec 3} (h : w &&& maskISB = constantBits (.I f3 opc)) :
    w.extractLsb' 12 3 = f3 ∧ w.extractLsb' 0 7 = opc := by
  rw [constantBits_I, ← packI_of_fields w, packI_and_maskISB] at h
  have hf3 := congrArg (BitVec.extractLsb' 12 3) h
  have hopc := congrArg (BitVec.extractLsb' 0 7) h
  simp only [packI_fields] at hf3 hopc
  exact ⟨hf3, hopc⟩

theorem operandsI_cases (r : OpcodeRow) (r0 r1 : Token) (imm : Int) :
    operandsI r r0 r1 imm = .rri r0 r1 imm ∨ operandsI r r0 r1 imm = .rm r0 r1 imm := by
  unfold operandsI
  split
  · exact .inr rfl
  · exact .inl rfl

/-- A word with a row's constant bits is the row's word for the operands read off it. -/
theorem encodes_operands {r : OpcodeRow} {row : RowConstants} {w : Word} (hcls : row.cls = r.cls)
    (h : w &&& classMask row.cls = constantBits row) : Encodes .defaultInstance row (r.operands w) w := by
  rw [OpcodeRow.operands, ← hcls]
  cases row with
  | R f7 f3 opc =>
    obtain ⟨rfl, rfl, rfl⟩ := constants_R h
    have henc := Encodes.R (f7 := w.extractLsb' 25 7) (f3 := w.extractLsb' 12 3) (opc := w.extractLsb' 0 7)
      (knows_xName (fieldRd w)) (knows_xName (fieldRs1 w)) (knows_xName (fieldRs2 w))
    rwa [packR_of_fields] at henc
  | I f3 opc =>
    obtain ⟨rfl, rfl⟩ := constants_ISB h
    have henc := Encodes.I (f3 := w.extractLsb' 12 3) (opc := w.extractLsb' 0 7)
      (operandsI_cases r _ _ _) (knows_xName (fieldRd w)) (knows_xName (fieldRs1 w)) (accepts_toInt (fieldImmI w))
    rwa [BitVec.ofInt_toInt, packI_of_fields] at henc
  | S f3 opc =>
    obtain ⟨rfl, rfl⟩ := constants_ISB h
    have henc := Encodes.S (f3 := w.extractLsb' 12 3) (opc := w.extractLsb' 0 7)
      (knows_xName (fieldRs2 w)) (knows_xName (fieldRs1 w)) (accepts_toInt (fieldImmS w))
    rwa [BitVec.ofInt_toInt, packS_of_fields] at henc
  | SB f3 opc =>
    obtain ⟨rfl, rfl⟩ := constants_ISB h
    have henc := Encodes.SB (f3 := w.extractLsb' 12 3) (opc := w.extractLsb' 0 7)
      (knows_xName (fieldRs1 w)) (knows_xName (fieldRs2 w)) (accepts_toInt (fieldImmSB w))
    rwa [BitVec.ofInt_toInt, packSB_of_fields] at henc

/-- A decoded word is the word of the instruction it decodes to. -/
theorem encode_of_decodeWord {w : Word} {i : Instr} (h : decodeWord w = .ok i) : encode i = some w := by
  obtain ⟨r, hr, hfit, rfl⟩ := exists_row_of_decodeWord h
  obtain ⟨r', row, hrow⟩ := exists_rowOf r.mn
  obtain rfl : r = r' := Option.some.inj ((of_mn_eq r hr).symm.trans hrow.of_eq)
  rw [encode_eq_some_iff, Mnemonic.instr_mnemonic, Mnemonic.instr_operands,
    encodeOperands_of_rowOf_some hrow.constants, encodeRow_eq_ok_iff]
  exact encodes_operands hrow.cls ((hrow.fits_iff w).mp hfit)

/-- Settles O28: encoding and decoding again gives the canonical spelling, so a decoded instruction is in it. -/
theorem encodingADecodedWord : Obligations.EncodingADecodedWord := by
  intro w i h
  have henc := encode_of_decodeWord h
  exact ⟨henc, Except.ok.inj ((decodingAnEncodedInstruction i w henc).symm.trans h)⟩

/-! ## A word put as the next request -/

theorem decodeTableWord_toNat {w : Word} {i : Instr} (h : decodeWord w = .ok i) :
    decodeTableWord 32 w.toNat = some i := by
  simp [decodeTableWord, w.isLt, h]

/-- The policy of the default parameters accepts least, so its words are words under either policy. -/
theorem encodeOperands_of_default {c : Config} (hc : c.tables = Tables.defaultInstance) {mn : Token} {ops : Operands}
    {w : Word} (h : encodeOperands .defaultInstance mn ops = .ok w) : encodeOperands c mn ops = .ok w := by
  refine encodeOperands_ok_mono (fun mn row hrow => ?_) (fun name r hreg => ?_) (fun w v hacc => ?_) h
  · rw [hc]; exact hrow
  · rw [Knows, hc]; exact hreg
  · obtain hpol | hrange := hacc
    · cases hpol
    · exact .inr hrange

/-- Settles O31: the step answers the request of the decoded instruction, whose word is the one put. -/
theorem fetchedWordComesBack : Obligations.FetchedWordComesBack := by
  intro s w i htables h
  have hword : encodeFields s.cfg (requestOf i.mnemonic.key i.operands) = .ok w := by
    rw [encodeFields, mn_requestOf, operandsOf_requestOf]
    exact encodeOperands_of_default htables (encode_eq_some_iff.mp (encode_of_decodeWord h))
  rw [State.withFetchWord, decodeTableWord_toNat h]
  refine ⟨_, step_cons rfl, ?_, rfl, rfl⟩
  simp [outcome, hword]

end Sys2Proof.Proofs.RoundTrip
end

section
/-! The line normaliser (`40_front_end.md` R85, R86) and the usual spelling of a line (`30_encoding.md` R71). -/

namespace Sys2Proof.Proofs.Normaliser

open Sys2Proof.Machine

theorem isComma_iff {b : Byte} : isComma b = true ↔ b = ascii ',' := beq_iff_eq

theorem deleteCommas_cons_comma (l : Line) : deleteCommas (ascii ',' :: l) = deleteCommas l := rfl

theorem deleteCommas_cons_of_not {b : Byte} (l : Line) (h : isComma b = false) :
    deleteCommas (b :: l) = b :: deleteCommas l := by
  simp [deleteCommas, h]

theorem deleteCommas_of_plain {t : Token} (h : PlainToken t) : deleteCommas t = t :=
  List.filter_eq_self.mpr fun b hb => by rw [(h.2 b hb).2]; rfl

theorem normalise_append_space (l l' : Line) {b : Byte} (h : isSpace b = true) :
    normalise (l ++ b :: l') = normalise l ++ normalise l' := by
  simp only [normalise_eq, deleteCommas_append, deleteCommas_cons_of_not l' (not_isComma_of_isSpace b h),
    splitWhitespace_append _ _ h]

theorem normalise_append_comma (l l' : Line) : normalise (l ++ ascii ',' :: l') = normalise (l ++ l') := by
  simp only [normalise_eq, deleteCommas_append, deleteCommas_cons_comma]

theorem normalise_of_plain {t : Token} (h : PlainToken t) : normalise t = [t] := by
  rw [normalise_eq, deleteCommas_of_plain h, splitWhitespace_of_no_space h.1 fun b hb => (h.2 b hb).1]

/-- Settles O39. -/
theorem normaliserSplitsAtWhitespaceOnly : Obligations.NormaliserSplitsAtWhitespaceOnly :=
  ⟨fun l l' _ h => normalise_append_space l l' h, normalise_append_comma, fun _ h => normalise_of_plain h, rfl⟩

theorem plainToken_of_mem_normalise {l : Line} {t : Token} (ht : t ∈ normalise l) : PlainToken t := by
  rw [normalise_eq] at ht
  obtain ⟨hne, hchars⟩ := mem_splitWhitespace _ t ht
  refine ⟨hne, fun b hb => ?_⟩
  obtain ⟨hspace, hmem⟩ := hchars b hb
  exact ⟨hspace, by simpa using (List.mem_filter.mp hmem).2⟩

theorem flatten_normalise (l : Line) : (normalise l).flatten = l.filter (fun b => !isSpace b && !isComma b) := by
  rw [normalise_eq, flatten_splitWhitespace, deleteCommas, List.filter_filter]

/-- Settles O40. -/
theorem normaliserKeepsTheOtherCharacters : Obligations.NormaliserKeepsTheOtherCharacters :=
  fun l => ⟨fun _ => plainToken_of_mem_normalise, flatten_normalise l⟩

/-- A line has no token exactly where it has no other characters: a token is never empty. -/
theorem normalise_eq_nil_iff (l : Line) : normalise l = [] ↔ ∀ b ∈ l, isSpace b = true ∨ b = ascii ',' := by
  have hflat : normalise l = [] ↔ (normalise l).flatten = [] := by
    constructor
    · intro h; rw [h]; rfl
    · intro h
      rw [List.flatten_eq_nil_iff] at h
      exact List.eq_nil_iff_forall_not_mem.mpr fun t ht => (plainToken_of_mem_normalise ht).1 (h t ht)
  rw [hflat, flatten_normalise, List.filter_eq_nil_iff]
  simp [← isComma_iff, or_iff_not_imp_left]

/-! ## The usual spelling -/

/-- Operands written one after another, each after a space, with a comma between two. -/
theorem normalise_intercalate {ops : List Token} (h : ∀ t ∈ ops, PlainToken t) :
    normalise ((tok [',', ' ']).intercalate ops) = ops := by
  induction ops with
  | nil => rfl
  | cons t rest ih =>
    have ht := normalise_of_plain (h t List.mem_cons_self)
    cases rest with
    | nil => rw [List.intercalate_singleton, ht]
    | cons u us =>
      have hspell : (tok [',', ' ']).intercalate (t :: u :: us) =
          t ++ ascii ',' :: (ascii ' ' :: (tok [',', ' ']).intercalate (u :: us)) := by
        rw [List.intercalate_cons_cons]; simp [tok]
      rw [hspell, normalise_append_comma, normalise_append_space _ _ (by decide), ht,
        ih fun x hx => h x (List.mem_cons_of_mem _ hx), List.singleton_append]

/-- Settles O45. -/
theorem usualSpellingNormalises : Obligations.UsualSpellingNormalises := by
  intro mn ops hmn hops
  have hspell : sourceLine mn ops = mn ++ ascii ' ' :: (tok [',', ' ']).intercalate ops := by
    simp [sourceLine, tok]
  rw [hspell, normalise_append_space _ _ (by decide), normalise_of_plain hmn, normalise_intercalate hops,
    List.singleton_append]

end Sys2Proof.Proofs.Normaliser
end

section
/-! The grammars of the integer token and of the memory reference (`40_front_end.md` R88, R89). -/

namespace Sys2Proof.Proofs.TokenGrammar

open Sys2Proof.Machine

/-! ## The integer token -/

theorem isDigit_iff {b : Byte} : isDigit b = true ↔ 0x30 ≤ b.toNat ∧ b.toNat ≤ 0x39 := by simp [isDigit]

/-- The decimal value of digits over the integers: no digit is below `0`, so the subtraction does not cut off. -/
theorem cast_decimalValue {ds : Token} (h : ∀ d ∈ ds, isDigit d = true) :
    (decimalValue ds : Int) = ds.foldl (fun (n : Int) d => 10 * n + (d.toNat - 0x30)) 0 := by
  have hfold : ∀ (n : Nat), ((ds.foldl (fun n d => 10 * n + (d.toNat - 0x30)) n : Nat) : Int) =
      ds.foldl (fun (n : Int) d => 10 * n + (d.toNat - 0x30)) (n : Int) := by
    induction ds with
    | nil => exact fun _ => rfl
    | cons d rest ih =>
      intro n
      have hd := (isDigit_iff.mp (h d List.mem_cons_self)).1
      simp only [List.foldl_cons]
      rw [ih fun x hx => h x (List.mem_cons_of_mem _ hx)]
      congr 1
      omega
  exact hfold 0

/-- `DIGIT+` over the integers. -/
theorem parseDigits_map_eq_some_iff {t : Token} {f : Int → Int} {v : Int} :
    (parseDigits t).map (fun n : Nat => f n) = some v ↔
      t ≠ [] ∧ (∀ d ∈ t, isDigit d = true) ∧ v = f (t.foldl (fun (n : Int) d => 10 * n + (d.toNat - 0x30)) 0) := by
  simp only [Option.map_eq_some_iff, parseDigits_eq_some_iff]
  constructor
  · rintro ⟨n, ⟨hne, hdig, rfl⟩, rfl⟩
    exact ⟨hne, hdig, by rw [cast_decimalValue hdig]⟩
  · rintro ⟨hne, hdig, rfl⟩
    exact ⟨decimalValue t, ⟨hne, hdig, rfl⟩, by rw [cast_decimalValue hdig]⟩

theorem parseInt_minus (ds : Token) :
    parseInt (ascii '-' :: ds) = (parseDigits ds).map (fun n : Nat => -(n : Int)) := rfl

theorem parseInt_of_not_minus {t : Token} (h : t.head? ≠ some (ascii '-')) :
    parseInt t = (parseDigits t).map (fun n : Nat => (n : Int)) := by
  cases t with
  | nil => rfl
  | cons b rest =>
    have hb : b ≠ ascii '-' := fun he => h (congrArg some he)
    simp [parseInt, hb]

theorem digit_ne_minus : ∀ b : Byte, isDigit b = true → b ≠ ascii '-' := by decide +kernel

/-- Settles O42: a token that starts with a minus sign is one and then digits, any other is digits alone. -/
theorem integerTokenGrammar : Obligations.IntegerTokenGrammar := by
  intro t v
  simp only [← isDigit_iff]
  by_cases hminus : t.head? = some (ascii '-')
  · obtain ⟨ds, rfl⟩ := List.head?_eq_some_iff.mp hminus
    rw [parseInt_minus, parseDigits_map_eq_some_iff (f := fun n => -n)]
    constructor
    · rintro ⟨hne, hdig, hv⟩
      exact ⟨ds, hne, hdig, .inr ⟨rfl, hv⟩⟩
    · rintro ⟨ds', hne, hdig, ⟨rfl, -⟩ | ⟨heq, hv⟩⟩
      · exact absurd rfl (digit_ne_minus _ (hdig _ List.mem_cons_self))
      · cases heq
        exact ⟨hne, hdig, hv⟩
  · rw [parseInt_of_not_minus hminus, parseDigits_map_eq_some_iff (f := fun n => n)]
    constructor
    · rintro ⟨hne, hdig, hv⟩
      exact ⟨t, hne, hdig, .inl ⟨rfl, hv⟩⟩
    · rintro ⟨ds, hne, hdig, ⟨rfl, hv⟩ | ⟨rfl, -⟩⟩
      · exact ⟨hne, hdig, hv⟩
      · exact absurd rfl hminus

/-! ## The memory reference -/

theorem isName_iff {t : Token} : isName t = true ↔ t ≠ [] ∧ ∀ b ∈ t, isNameChar b = true := by
  simp [isName]

theorem isOpen_iff {b : Byte} : isOpen b = true ↔ b = ascii '(' := beq_iff_eq

theorem memToken_eq (n base : Token) : memToken n base = n ++ ascii '(' :: (base ++ [ascii ')']) := by
  simp [memToken, tok]

/-- The characters of an integer token are no `(`. -/
theorem isOpen_of_parseInt {n : Token} {v : Int} (h : parseInt n = some v) : ∀ b ∈ n, isOpen b = false :=
  fun b hb => (digit_facts b ((chars_of_parseInt h).2 b hb)).1

theorem isOpen_of_dropWhile {t body : Token} {x : Byte} (h : t.dropWhile (fun b => !isOpen b) = x :: body) :
    x = ascii '(' := by
  have hhead := List.head?_dropWhile_not (fun b => !isOpen b) t
  rw [h] at hhead
  exact isOpen_iff.mp (by simpa using hhead)

/-- Settles O43: the first `(` ends the integer, the last character closes the name. -/
theorem memoryReferenceGrammar : Obligations.MemoryReferenceGrammar := by
  intro t base v
  simp only [← isName_iff]
  constructor
  · intro h
    unfold parseMem at h
    split at h
    · cases h
    · rename_i x body hdrop
      split at h
      · rename_i hcond
        obtain ⟨hlast, hname⟩ := Bool.and_eq_true_iff.mp hcond
        obtain ⟨w, hw, heq⟩ := Option.map_eq_some_iff.mp h
        obtain ⟨rfl, rfl⟩ := Prod.mk.inj heq
        have hx : x = ascii '(' := isOpen_of_dropWhile hdrop
        have hbody : body = body.dropLast ++ [ascii ')'] :=
          (List.dropLast_append_getLast? _ (beq_iff_eq.mp hlast)).symm
        refine ⟨_, ?_, hw, hname⟩
        rw [memToken_eq, ← hbody, ← hx, ← hdrop, List.takeWhile_append_dropWhile]
      · cases h
  · rintro ⟨n, rfl, hn, hname⟩
    rw [memToken_eq, parseMem_of_parts n base (isOpen_of_parseInt hn), if_pos hname, hn, Option.map_some]

/-- The parts of a memory token with a NAME for its base are determined: its last `(` stands before the base. -/
theorem memToken_inj {n n' base base' : Token} (h : isName base = true) (h' : isName base' = true)
    (heq : memToken n base = memToken n' base') : n = n' ∧ base = base' := by
  have hopen : ∀ {t : Token}, isName t = true → ∀ b ∈ t.reverse, isOpen b = false := fun ht b hb =>
    (name_facts b ((isName_iff.mp ht).2 b (List.mem_reverse.mp hb))).1
  have hparts : base.reverse ++ ascii '(' :: n.reverse = base'.reverse ++ ascii '(' :: n'.reverse := by
    simpa [memToken, tok] using congrArg List.reverse heq
  obtain ⟨hbase, hn⟩ := cut_at_open base.reverse n.reverse (hopen h)
  obtain ⟨hbase', hn'⟩ := cut_at_open base'.reverse n'.reverse (hopen h')
  rw [hparts] at hbase hn
  exact ⟨List.reverse_injective (List.cons.inj (hn.symm.trans hn')).2, List.reverse_injective (hbase.symm.trans hbase')⟩

/-- A memory token with a NAME for its base is parsed by its integer alone. -/
theorem parseMem_memToken {n base : Token} (h : isName base = true) :
    parseMem (memToken n base) = (parseInt n).map (fun v => (v, base)) := by
  cases hn : parseInt n with
  | some v => exact (memoryReferenceGrammar _ _ _).mpr ⟨n, rfl, hn, isName_iff.mp h⟩
  | none =>
    refine Option.eq_none_iff_forall_ne_some.mpr fun ⟨v, base'⟩ hsome => ?_
    obtain ⟨n', heq, hn', hname⟩ := (memoryReferenceGrammar _ _ _).mp hsome
    obtain ⟨rfl, -⟩ := memToken_inj h (isName_iff.mpr hname) heq
    cases hn.symm.trans hn'

end Sys2Proof.Proofs.TokenGrammar
end

section
/-! The text contract: blank lines, the operand lists by class, and the error of a line (`40_front_end.md` R86 to R92,
`60_exceptions.md` R194, R195). -/

namespace Sys2Proof.Proofs.TextContract

open Sys2Proof.Machine Sys2Proof.Proofs.Classifier Sys2Proof.Proofs.FrontEnd Sys2Proof.Proofs.Block
  Sys2Proof.Proofs.Normaliser Sys2Proof.Proofs.TokenGrammar

/-! ## What the front end makes of a line -/

section
variable {c : Config} {l : Line} {mn : Token} {ops : List Token} {cls : FormatClass}

theorem frontEnd_of_classOf (hl : normalise l = mn :: ops) (hcls : c.tables.classOf mn = some cls) :
    frontEnd c l = parseOperands cls mn ops := by
  rw [frontEnd, hl]
  simp only [hcls]

theorem encodeInstruction_of_request {q : HwReq} (h : frontEnd c l = .request q ops) :
    encodeInstruction c l = textResult l q ops (encodeFields c q) := by
  rw [encodeInstruction, h]

theorem parseR_of_length (h : ops.length ≠ 3) : parseR mn ops = .fail .malformedOperand [] := by
  unfold parseR
  split
  · exact absurd rfl h
  · rfl

theorem parseMemForm_of_length (h : ops.length ≠ 2) : parseMemForm mn ops = .fail .malformedOperand [] := by
  unfold parseMemForm
  split
  · exact absurd rfl h
  · rfl

theorem parseIntForm_of_length (h : ops.length ≠ 3) : parseIntForm mn ops = .fail .malformedOperand [] := by
  unfold parseIntForm
  split
  · exact absurd rfl h
  · rfl

theorem parseMemForm_of_none {a m : Token} (h : parseMem m = none) :
    parseMemForm mn [a, m] = .fail .malformedOperand m := by simp only [parseMemForm, h]

theorem parseMemForm_of_some {a m base : Token} {v : Int} (h : parseMem m = some (v, base)) :
    parseMemForm mn [a, m] = .request ⟨mn, .rm, a, base, [], v⟩ [a, m] := by simp only [parseMemForm, h]

theorem parseIntForm_of_none {a b n : Token} (h : parseInt n = none) :
    parseIntForm mn [a, b, n] = .fail .malformedOperand n := by simp only [parseIntForm, h]

theorem parseIntForm_of_some {a b n : Token} {v : Int} (h : parseInt n = some v) :
    parseIntForm mn [a, b, n] = .request ⟨mn, .rri, a, b, [], v⟩ [a, b, n] := by simp only [parseIntForm, h]

/-- The second operand holds a `(` (R91). -/
theorem hasMemOperand_iff : hasMemOperand ops = true ↔ ∃ m, ops[1]? = some m ∧ ascii '(' ∈ m := by
  unfold hasMemOperand
  split
  · simp [isOpen_iff]
  · rename_i h
    cases ops with
    | nil => simp
    | cons a rest =>
      cases rest with
      | nil => simp
      | cons b rest => exact absurd rfl (h a b rest)

/-- The memory form: class S, and class I with a `(` in the second operand (R90, R91). -/
theorem parseOperands_mem (h : cls = .S ∨ cls = .I ∧ ∃ m, ops[1]? = some m ∧ ascii '(' ∈ m) :
    parseOperands cls mn ops = parseMemForm mn ops := by
  obtain rfl | ⟨rfl, hmem⟩ := h
  · rfl
  · exact if_pos (hasMemOperand_iff.mpr hmem)

/-- The register form: class SB, and class I otherwise (R90, R91). -/
theorem parseOperands_int (h : cls = .SB ∨ cls = .I ∧ ¬ ∃ m, ops[1]? = some m ∧ ascii '(' ∈ m) :
    parseOperands cls mn ops = parseIntForm mn ops := by
  obtain rfl | ⟨rfl, hmem⟩ := h
  · rfl
  · exact if_neg fun hop => hmem (hasMemOperand_iff.mp hop)

/-- Every branch of the three operand lists is an error or a request. -/
theorem parseOperands_ne_blank : parseOperands cls mn ops ≠ .blank := by
  cases cls <;> simp only [parseOperands, parseR, parseMemForm, parseIntForm] <;> (repeat' split) <;> simp

/-- Only a line without tokens is blank (R86). -/
theorem frontEnd_eq_blank_iff : frontEnd c l = .blank ↔ normalise l = [] := by
  cases hl : normalise l with
  | nil => simp [frontEnd, hl]
  | cons mn ops =>
    cases hcls : c.tables.classOf mn with
    | none => simp [frontEnd_of_classOf_none hl hcls]
    | some cls => simp [frontEnd_of_classOf hl hcls, parseOperands_ne_blank]

end

/-! ## Blank lines -/

theorem bitString_ne_nil (w : Word) : bitString w ≠ [] :=
  List.ne_nil_of_length_pos (by rw [length_bitString]; decide)

/-- The empty string is the outcome of blank lines alone (R86, R93). -/
theorem encodeInstruction_eq_nil_iff (c : Config) (l : Line) :
    encodeInstruction c l = .ok [] ↔ frontEnd c l = .blank := by
  rw [encodeInstruction_eq_ok_iff]
  constructor
  · rintro (⟨h, -⟩ | ⟨q, ops, w, -, -, htext⟩)
    · exact h
    · exact absurd htext.symm (bitString_ne_nil w)
  · exact fun h => .inl ⟨h, rfl⟩

/-- Settles O41. -/
theorem blankLinesPassThrough : Obligations.BlankLinesPassThrough := by
  intro c l
  refine ⟨by rw [encodeInstruction_eq_nil_iff, frontEnd_eq_blank_iff, normalise_eq_nil_iff], ?_⟩
  rintro h s t rest rfl hs hstep
  cases (step_cons hs).symm.trans hstep
  have hblank := (encodeInstruction_eq_nil_iff _ l).mp h
  exact ⟨by simp [responseTo, hblank], by simp [outcome, h]⟩

/-! ## The words of lines -/

/-- A known name is a NAME: 1 to 8 letters, digits and underscores (R24). -/
theorem isName_of_knows {c : Config} {name : Token} {r : RegIndex} (h : Knows c name r) : isName name = true := by
  have hkey := isKey_of_regOf h
  simp only [isKey, Bool.and_eq_true] at hkey
  exact Bool.and_eq_true_iff.mpr ⟨hkey.1.1, hkey.2⟩

theorem open_notMem_of_isName {name : Token} (h : isName name = true) : ascii '(' ∉ name := fun hmem =>
  absurd (name_facts _ ((isName_iff.mp h).2 _ hmem)).1 (by decide)

theorem plainToken_of_parseInt {n : Token} {v : Int} (h : parseInt n = some v) : PlainToken n :=
  have ⟨hne, hchars⟩ := chars_of_parseInt h
  ⟨hne, fun b hb => (digit_facts b (hchars b hb)).2⟩

theorem plainToken_memToken {n base : Token} (hn : PlainToken n) (hbase : PlainToken base) :
    PlainToken (memToken n base) := by
  refine ⟨by simp [memToken, tok], fun b hb => ?_⟩
  simp only [memToken_eq, List.mem_append, List.mem_cons, List.not_mem_nil, or_false] at hb
  obtain hb | rfl | hb | rfl := hb
  · exact hn.2 b hb
  · decide
  · exact hbase.2 b hb
  · decide

theorem open_mem_memToken (n base : Token) : ascii '(' ∈ memToken n base := by simp [memToken, tok]

theorem isName_of_encodeOperands {c : Config} {mn name : Token} {w : Word} {ops : Operands}
    (h : encodeOperands c mn ops = .ok w) (hname : name ∈ ops.names) : isName name = true := by
  obtain ⟨row, -, henc⟩ := encodeOperands_eq_ok_iff.mp h
  obtain ⟨r, hr⟩ := knows_of_encodes henc name hname
  exact isName_of_knows hr

theorem encodeInstruction_of_word {c : Config} {l : Line} {q : HwReq} {ops : List Token} {w : Word}
    (h : frontEnd c l = .request q ops) (hw : encodeFields c q = .ok w) :
    encodeInstruction c l = .ok (bitString w) := by
  rw [encodeInstruction_of_request h, hw, textResult]

/-- Settles O46: the line falls into its parts, the class chooses the operand list, and the request is for the
operands of the word. A known base holds no `(`, so it does not turn a register form into a memory form. -/
theorem sourceLinesGiveTheirWords : Obligations.SourceLinesGiveTheirWords := by
  intro c mn a b cls w hmn ha hb hcls
  refine ⟨fun d hd hR hw => ?_, fun n v hn hform hw => ?_, fun n v hn hform hw => ?_⟩
  · subst hR
    have hl := usualSpellingNormalises mn [a, b, d] hmn (by simp [ha, hb, hd])
    exact encodeInstruction_of_word (frontEnd_of_classOf hl hcls) hw
  · have hl := usualSpellingNormalises mn [a, b, n] hmn (by simp [ha, hb, plainToken_of_parseInt hn])
    have hopen : ascii '(' ∉ b := open_notMem_of_isName (isName_of_encodeOperands hw (by simp [Operands.names]))
    have hint : parseOperands cls mn [a, b, n] = parseIntForm mn [a, b, n] :=
      parseOperands_int (hform.symm.imp_right fun hI => ⟨hI, by simpa using hopen⟩)
    exact encodeInstruction_of_word ((frontEnd_of_classOf hl hcls).trans (hint.trans (parseIntForm_of_some hn))) hw
  · have hl := usualSpellingNormalises mn [a, memToken n b] hmn
      (by simp [ha, plainToken_memToken (plainToken_of_parseInt hn) hb])
    have hname : isName b = true := isName_of_encodeOperands hw (by simp [Operands.names])
    have hmem : parseOperands cls mn [a, memToken n b] = parseMemForm mn [a, memToken n b] :=
      parseOperands_mem (hform.symm.imp_right fun hI => ⟨hI, by simpa using open_mem_memToken n b⟩)
    have hparse : parseMem (memToken n b) = some (v, b) := by rw [parseMem_memToken hname, hn, Option.map_some]
    exact encodeInstruction_of_word ((frontEnd_of_classOf hl hcls).trans (hmem.trans (parseMemForm_of_some hparse))) hw

/-- Settles O49. -/
theorem scenariosOfTheSource : Obligations.ScenariosOfTheSource := by
  unfold Obligations.ScenariosOfTheSource
  decide +kernel

/-! ## The two forms of class I -/

theorem textResult_eq_ok_iff {l text : Line} {q : HwReq} {ops : List Token} {r : BlockResult} :
    textResult l q ops r = .ok text ↔ ∃ w, r = .ok w ∧ bitString w = text := by
  cases r <;> simp [textResult]

/-- For class I the block does not see which form an operand list came in (R106, R141). -/
theorem encodeOperands_rri_eq_rm {c : Config} {mn : Token} (h : c.tables.classOf mn = some .I) (a b : Token) (v : Int) :
    encodeOperands c mn (.rri a b v) = encodeOperands c mn (.rm a b v) := by
  obtain ⟨row, hrow, hI⟩ := rowOf_of_classOf h
  rw [encodeOperands_of_rowOf_some hrow, encodeOperands_of_rowOf_some hrow]
  cases row <;> cases hI
  rfl

/-- Settles O47: both lines parse by the same integer token, and the block answers both requests alike. -/
theorem bothFormsOfClassIAgree : Obligations.BothFormsOfClassIAgree := by
  intro c l l' mn a b n text hcls hname hl hl'
  have hb : isName b = true := isName_iff.mpr hname
  have hint : frontEnd c l = parseIntForm mn [a, b, n] :=
    (frontEnd_of_classOf hl hcls).trans (parseOperands_int (.inr ⟨rfl, by simpa using open_notMem_of_isName hb⟩))
  have hmem : frontEnd c l' = parseMemForm mn [a, memToken n b] :=
    (frontEnd_of_classOf hl' hcls).trans (parseOperands_mem (.inr ⟨rfl, by simpa using open_mem_memToken n b⟩))
  have hparse := parseMem_memToken (n := n) hb
  cases hn : parseInt n with
  | none =>
    rw [hn, Option.map_none] at hparse
    rw [encodeInstruction_of_fail (hint.trans (parseIntForm_of_none hn)),
      encodeInstruction_of_fail (hmem.trans (parseMemForm_of_none hparse))]
    simp
  | some v =>
    rw [hn, Option.map_some] at hparse
    have hblock : encodeFields c ⟨mn, .rri, a, b, [], v⟩ = encodeFields c ⟨mn, .rm, a, b, [], v⟩ :=
      encodeOperands_rri_eq_rm hcls a b v
    rw [encodeInstruction_of_request (hint.trans (parseIntForm_of_some hn)),
      encodeInstruction_of_request (hmem.trans (parseMemForm_of_some hparse)),
      textResult_eq_ok_iff, textResult_eq_ok_iff, hblock]

/-! ## The error of a line -/

theorem encodeInstruction_of_err {c : Config} {l : Line} {q : HwReq} {ops : List Token} {kind : ErrorKind} {slot : Slot}
    (h : frontEnd c l = .request q ops) (he : encodeFields c q = .err kind slot) :
    encodeInstruction c l = .err ⟨kind, slotToken q ops slot, l⟩ := by
  rw [encodeInstruction_of_request h, he, textResult]

theorem encodeOperands_of_int {c : Config} {mn n0 n1 : Token} {cls : FormatClass} {ops : Operands} {v : Int}
    (hcls : c.tables.classOf mn = some cls) (hfit : ops.fits cls = true) (hnames : ops.names = [n0, n1])
    (hint : ops.int = some v) : ∃ pack, encodeOperands c mn ops = encodeRegsImm c cls.immWidth pack n0 n1 v := by
  obtain ⟨row, hrow, rfl⟩ := rowOf_of_classOf hcls
  rw [encodeOperands_of_rowOf_some hrow]
  exact encodeRow_of_int hfit hnames hint

theorem encodeOperands_of_R {c : Config} {mn : Token} (hcls : c.tables.classOf mn = some .R) (n0 n1 n2 : Token) :
    ∃ f7 f3 opc, encodeOperands c mn (.rrr n0 n1 n2) = encodeR c f7 f3 opc n0 n1 n2 := by
  obtain ⟨row, hrow, hR⟩ := rowOf_of_classOf hcls
  rw [encodeOperands_of_rowOf_some hrow]
  cases row <;> cases hR
  exact ⟨_, _, _, rfl⟩

/-- The errors of a request of two registers and an immediate, in their order, with their tokens (R194, R195). -/
theorem errors_of_regsImm {c : Config} {l : Line} {q : HwReq} {ops : List Token} {w : Nat}
    {pack : RegIndex → RegIndex → BitVec w → Word} {v : Int} (hreq : frontEnd c l = .request q ops)
    (hblock : encodeFields c q = encodeRegsImm c w pack q.r0 q.r1 v) :
    (Unknown c q.r0 → encodeInstruction c l = .err ⟨.unknownRegister, q.r0, l⟩) ∧
    (¬ Unknown c q.r0 → Unknown c q.r1 → encodeInstruction c l = .err ⟨.unknownRegister, q.r1, l⟩) ∧
    (¬ Unknown c q.r0 → ¬ Unknown c q.r1 → ¬ Accepts c w v →
      encodeInstruction c l = .err ⟨.malformedOperand, slotToken q ops .imm, l⟩) := by
  refine ⟨fun h0 => ?_, fun h0 h1 => ?_, fun h0 h1 hv => ?_⟩
  · exact encodeInstruction_of_err hreq (hblock.trans (encodeRegsImm_unknown0 h0))
  · obtain ⟨a, h0⟩ := known_iff.mp h0
    exact encodeInstruction_of_err hreq (hblock.trans (encodeRegsImm_unknown1 h0 h1))
  · obtain ⟨a, h0⟩ := known_iff.mp h0
    obtain ⟨b, h1⟩ := known_iff.mp h1
    exact encodeInstruction_of_err hreq (hblock.trans (encodeRegsImm_rejected h0 h1 hv))

/-- The errors of a request of three registers, in their order. -/
theorem errors_of_R {c : Config} {l : Line} {q : HwReq} {ops : List Token} {f7 opc : BitVec 7} {f3 : BitVec 3}
    (hreq : frontEnd c l = .request q ops) (hblock : encodeFields c q = encodeR c f7 f3 opc q.r0 q.r1 q.r2) :
    (Unknown c q.r0 → encodeInstruction c l = .err ⟨.unknownRegister, q.r0, l⟩) ∧
    (¬ Unknown c q.r0 → Unknown c q.r1 → encodeInstruction c l = .err ⟨.unknownRegister, q.r1, l⟩) ∧
    (¬ Unknown c q.r0 → ¬ Unknown c q.r1 → Unknown c q.r2 →
      encodeInstruction c l = .err ⟨.unknownRegister, q.r2, l⟩) := by
  refine ⟨fun h0 => ?_, fun h0 h1 => ?_, fun h0 h1 h2 => ?_⟩
  · exact encodeInstruction_of_err hreq (hblock.trans (encodeR_unknown0 h0))
  · obtain ⟨a, h0⟩ := known_iff.mp h0
    exact encodeInstruction_of_err hreq (hblock.trans (encodeR_unknown1 h0 h1))
  · obtain ⟨a, h0⟩ := known_iff.mp h0
    obtain ⟨b, h1⟩ := known_iff.mp h1
    exact encodeInstruction_of_err hreq (hblock.trans (encodeR_unknown2 h0 h1 h2))

/-- Settles O44: the class chooses one of the three operand lists; each fails on its count, then on its syntax, and
then presents a request whose errors the block orders. -/
theorem errorPriorityOnLines : Obligations.ErrorPriorityOnLines := by
  intro c l mn ops hl
  refine ⟨fun hnone => encodeInstruction_of_fail (frontEnd_of_classOf_none hl hnone), fun cls hcls => ?_⟩
  have hfront := frontEnd_of_classOf hl hcls
  refine ⟨fun hR => ?_, fun hform => ?_, fun hform => ?_⟩
  · subst hR
    refine ⟨fun hlen => encodeInstruction_of_fail (hfront.trans (parseR_of_length hlen)), fun a b d hops => ?_⟩
    subst hops
    obtain ⟨f7, f3, opc, hblock⟩ := encodeOperands_of_R hcls a b d
    exact errors_of_R hfront hblock
  · rw [parseOperands_mem hform] at hfront
    obtain ⟨hwidth, hfit⟩ : cls.immWidth = 12 ∧ ∀ a base v, (Operands.rm a base v).fits cls = true := by
      obtain rfl | ⟨rfl, -⟩ := hform <;> exact ⟨rfl, fun _ _ _ => rfl⟩
    refine ⟨fun hlen => encodeInstruction_of_fail (hfront.trans (parseMemForm_of_length hlen)), fun a m hops => ?_⟩
    subst hops
    refine ⟨fun hnone => encodeInstruction_of_fail (hfront.trans (parseMemForm_of_none hnone)), fun v base hm => ?_⟩
    obtain ⟨pack, hblock⟩ := encodeOperands_of_int hcls (hfit a base v) rfl rfl
    rw [← hwidth]
    exact errors_of_regsImm (hfront.trans (parseMemForm_of_some hm)) hblock
  · rw [parseOperands_int hform] at hfront
    have hfit : ∀ a b v, (Operands.rri a b v).fits cls = true := by
      obtain rfl | ⟨rfl, -⟩ := hform <;> exact fun _ _ _ => rfl
    refine ⟨fun hlen => encodeInstruction_of_fail (hfront.trans (parseIntForm_of_length hlen)), fun a b n hops => ?_⟩
    subst hops
    refine ⟨fun hnone => encodeInstruction_of_fail (hfront.trans (parseIntForm_of_none hnone)), fun v hn => ?_⟩
    obtain ⟨pack, hblock⟩ := encodeOperands_of_int hcls (hfit a b v) rfl rfl
    exact errors_of_regsImm (hfront.trans (parseIntForm_of_some hn)) hblock

end Sys2Proof.Proofs.TextContract
end

section
/-! The port level (`10_state.md` R30 to R35): what the wires carry is what the model level answers. -/

namespace Sys2Proof.Proofs.PortLevel

open Sys2Proof.Machine Sys2Proof.Proofs.Classifier Sys2Proof.Proofs.RFormat Sys2Proof.Proofs.Block

/-! ## Keys -/

/-- Settles O50: a token that fits a port is read back from it; the others leave all ones, which carry no key. -/
theorem keyPortMatchesExactlyTheKey : Obligations.KeyPortMatchesExactlyTheKey := by
  intro t key hkey
  have hback := unpackKey_packKey (fitsKeyPort_of_isKey hkey)
  refine ⟨fun heq => ?_, fun heq => by rw [heq]⟩
  cases hfit : fitsKeyPort t with
  | true => rw [← unpackKey_packKey hfit, heq, hback]
  | false =>
    rw [← heq, packKey_of_not_fits hfit] at hback
    rw [← hback, isKey_unpackKey_allOnes] at hkey
    cases hkey

/-- A table holds no token that is no key (R24). -/
theorem lookup_of_not_isKey {α : Type} {table : List (Token × α)} (hmap : isMap table = true) {t : Token}
    (h : isKey t = false) : lookup table t = none := by
  refine Option.eq_none_iff_forall_ne_some.mpr fun v hv => ?_
  simp only [isMap, Bool.and_eq_true, List.all_eq_true] at hmap
  rw [hmap.1 _ (mem_of_lookup hv)] at h
  cases h

/-- A table answers a token put on a key port as it answers the token (R33). -/
theorem lookup_unpackKey_packKey {α : Type} {table : List (Token × α)} (hmap : isMap table = true) (t : Token) :
    lookup table (unpackKey (packKey t)) = lookup table t := by
  cases hfit : fitsKeyPort t with
  | true => rw [unpackKey_packKey hfit]
  | false =>
    have hkey : isKey t = false := by
      cases hk : isKey t with
      | false => rfl
      | true => rw [fitsKeyPort_of_isKey hk] at hfit; cases hfit
    rw [packKey_of_not_fits hfit, lookup_of_not_isKey hmap isKey_unpackKey_allOnes, lookup_of_not_isKey hmap hkey]

/-- The five tables of a configuration are maps on keys (R24). -/
theorem isMap_tables (c : Config) : isMap c.tables.fmt = true ∧ isMap c.tables.opc = true ∧ isMap c.tables.f3 = true ∧
    isMap c.tables.f7 = true ∧ isMap c.tables.reg = true := by
  have hwf := c.wf
  simp only [Tables.wf, Bool.and_eq_true, and_assoc] at hwf
  obtain ⟨hfmt, hopc, hf3, hf7, hreg, -⟩ := hwf
  exact ⟨hfmt, hopc, hf3, hf7, hreg⟩

section
variable (c : Config) (t : Token)

theorem classOf_port : c.tables.classOf (unpackKey (packKey t)) = c.tables.classOf t :=
  have ⟨hfmt, _⟩ := isMap_tables c
  lookup_unpackKey_packKey hfmt t

theorem regOf_port : c.tables.regOf (unpackKey (packKey t)) = c.tables.regOf t :=
  have ⟨_, _, _, _, hreg⟩ := isMap_tables c
  lookup_unpackKey_packKey hreg t

theorem constantsOf_port (cls : FormatClass) :
    c.tables.constantsOf (unpackKey (packKey t)) cls = c.tables.constantsOf t cls := by
  obtain ⟨-, hopc, hf3, hf7, -⟩ := isMap_tables c
  cases cls <;> simp only [Tables.constantsOf, lookup_unpackKey_packKey hopc, lookup_unpackKey_packKey hf3,
    lookup_unpackKey_packKey hf7]

theorem rowOf_port : c.tables.rowOf (unpackKey (packKey t)) = c.tables.rowOf t := by
  simp only [Tables.rowOf, classOf_port, constantsOf_port]

theorem withReg_port (slot : Slot) (next : RegIndex → BlockResult) :
    withReg c (unpackKey (packKey t)) slot next = withReg c t slot next := by
  simp only [withReg, regOf_port]

end

/-! ## The immediate -/

/-- Cutting an integer to 32 bits does not change a field of at most 32 bits. -/
theorem ofInt_toInt_ofInt {w : Nat} (hw : w ≤ 32) (v : Int) :
    BitVec.ofInt w (BitVec.ofInt 32 v).toInt = BitVec.ofInt w v := by
  apply BitVec.eq_of_toInt_eq
  rw [BitVec.toInt_ofInt, BitVec.toInt_ofInt, BitVec.toInt_ofInt, Int.bmod_bmod_of_dvd (pow_dvd_pow 2 hw)]

/-- An integer the port holds is read back as itself under `error`, and as one with the same field under `truncate`. -/
theorem bin_port {c : Config} {v : Int} {w : Nat} (hw : w ≤ 32) (h : immFitsPort c.policy v = true) :
    bin c.policy (modBits v 32).toInt w = bin c.policy v w := by
  rw [modBits_eq_ofInt]
  cases hp : c.policy with
  | truncate => rw [bin_truncate, bin_truncate, ofInt_toInt_ofInt hw]
  | error =>
    obtain ⟨hlow, hhigh⟩ := (inDomain_iff v 31).mp (by simpa [immFitsPort, hp] using h)
    rw [BitVec.toInt_ofInt_eq_self (by decide) hlow hhigh]

theorem withImm_port {c : Config} {v : Int} {w : Nat} (hw : w ≤ 32) (h : immFitsPort c.policy v = true)
    (next : BitVec w → BlockResult) : withImm c (modBits v 32).toInt w next = withImm c v w next := by
  simp only [withImm, bin_port hw h]

/-! ## The request on the ports -/

/-- What the front end puts on the ports, and where (R31, R34). -/
theorem toPorts_eq_some_iff {c : Config} {q : HwReq} {p : PortIn} :
    toPorts c q = some p ↔ (usesImm q.form = true → immFitsPort c.policy q.imm = true) ∧
      p = ⟨true, packKey q.mn, formCode q.form, packKey q.r0, packKey q.r1, packKey q.r2, modBits q.imm 32⟩ := by
  unfold toPorts
  cases usesImm q.form <;> cases immFitsPort c.policy q.imm <;> simp [eq_comm]

/-- The request read off the ports has the outcome of the request put there. -/
theorem encodeFields_portRequest {c : Config} {q : HwReq} {p : PortIn} (h : toPorts c q = some p) :
    encodeFields c (portRequest p) = encodeFields c q := by
  obtain ⟨himm, rfl⟩ := toPorts_eq_some_iff.mp h
  obtain ⟨mn, form, r0, r1, r2, imm⟩ := q
  simp only [encodeFields, portRequest, operandsOf, encodeOperands, rowOf_port, formOfCode_formCode]
  cases c.tables.rowOf mn with
  | none => rfl
  | some row =>
    cases form with
    | reserved => rfl
    | rrr => cases row <;> simp only [encodeRow, encodeR, withReg_port]
    | rri | rm =>
      have h12 := fun next => withImm_port (w := 12) (by decide) (himm rfl) next
      have h13 := fun next => withImm_port (w := 13) (by decide) (himm rfl) next
      cases row <;> simp only [encodeRow, encodeI, encodeS, encodeSB, withReg_port, h12, h13]

/-- A request on the ports drives the wires with its outcome. -/
theorem rvEncoder_of_toPorts {c : Config} {q : HwReq} {p : PortIn} (h : toPorts c q = some p) :
    rvEncoder c p = drive c p (some (encodeFields c q)) := by
  have hvalid : p.reqValid = true := by rw [(toPorts_eq_some_iff.mp h).2]
  rw [rvEncoder, if_pos hvalid, encodeFields_portRequest h]

/-- Every field is narrower than the port, so an integer the port does not hold is accepted by no field (R34). -/
theorem immFitsPort_of_accepts {c : Config} {cls : FormatClass} {v : Int} (h : Accepts c cls.immWidth v) :
    immFitsPort c.policy v = true := by
  obtain hpol | ⟨hlow, hhigh⟩ := h
  · simp [immFitsPort, hpol]
  · have hdom : inDomain v 31 = true := by
      rw [inDomain_iff]
      cases cls <;> simp only [FormatClass.immWidth] at hlow hhigh <;> constructor <;> linarith
    simp [immFitsPort, hdom]

theorem int_operandsOf {q : HwReq} (h : usesImm q.form = true) : (operandsOf q).int = some q.imm := by
  obtain ⟨mn, form, r0, r1, r2, imm⟩ := q
  cases form <;> cases h <;> rfl

/-- A request that is not put on the ports has no word. -/
theorem encodeFields_ne_ok_of_toPorts_none {c : Config} {q : HwReq} (h : toPorts c q = none) (w : Word) :
    encodeFields c q ≠ .ok w := by
  intro hw
  obtain ⟨row, -, henc⟩ := encodeOperands_eq_ok_iff.mp hw
  have hfits : usesImm q.form = true → immFitsPort c.policy q.imm = true := fun huse =>
    immFitsPort_of_accepts (accepts_of_encodes henc _ (int_operandsOf huse))
  cases h.symm.trans (toPorts_eq_some_iff.mpr ⟨hfits, rfl⟩)

/-- Settles O51. -/
theorem portLevelComputesTheModelLevel : Obligations.PortLevelComputesTheModelLevel := by
  refine fun c q => ⟨fun p hp => ?_, encodeFields_ne_ok_of_toPorts_none⟩
  obtain ⟨-, rfl⟩ := toPorts_eq_some_iff.mp hp
  rw [rvEncoder_of_toPorts hp]
  refine ⟨rfl, ?_, fun cls hcls => ?_, fun w hw => ?_, fun kind slot herr => ?_⟩
  · simp only [drive, classOf_port]
  · simp only [drive, classOf_port, hcls]
  · rw [hw]
    exact ⟨rfl, rfl⟩
  · rw [herr]
    exact ⟨rfl, rfl⟩

/-- Settles O52. -/
theorem hitAndClassFollowTheMnemonicKey : Obligations.HitAndClassFollowTheMnemonicKey := by
  refine fun c p p' => ⟨rfl, fun hkey => ?_⟩
  simp only [rvEncoder, drive, hkey, and_self]

end Sys2Proof.Proofs.PortLevel
end

section
/-! The instructions of each class under the default tables, and the errors of every instruction in their order
(`41_classifier_regdecoder.md` R105 to R109, files 42 to 45). -/

namespace Sys2Proof.Proofs.Instructions

open Sys2Proof.Machine Sys2Proof.Proofs.Classifier Sys2Proof.Proofs.RFormat Sys2Proof.Proofs.Block

/-! ## The rows of the four lists -/

/-- A constructor of instructions has a row of constants in the default tables. -/
def HasRow (f : Operands → Instr) (row : RowConstants) : Prop :=
  ∃ m : Mnemonic, f = m.instr ∧ Tables.defaultInstance.rowOf m.key = some row

/-- A constructor is known by the mnemonic of any instruction it makes. -/
theorem hasRow_of_reserved {f : Operands → Instr} {row : RowConstants} (hf : f = (f .reserved).mnemonic.instr)
    (hrow : Tables.defaultInstance.rowOf (f .reserved).mnemonic.key = some row) : HasRow f row := ⟨_, hf, hrow⟩

theorem hasRow_instrsR : ∀ row ∈ instrsR, HasRow row.1 (.R row.2.1 row.2.2 0b0110011#7) := by
  intro row h
  fin_cases h <;> exact hasRow_of_reserved rfl (by decide +kernel)

theorem hasRow_instrsI : ∀ row ∈ instrsI, HasRow row.1 (.I row.2.2 row.2.1) := by
  intro row h
  fin_cases h <;> exact hasRow_of_reserved rfl (by decide +kernel)

theorem hasRow_instrsS : ∀ row ∈ instrsS, HasRow row.1 (.S row.2 0b0100011#7) := by
  intro row h
  fin_cases h <;> exact hasRow_of_reserved rfl (by decide +kernel)

theorem hasRow_instrsSB : ∀ row ∈ instrsSB, HasRow row.1 (.SB row.2 0b1100011#7) := by
  intro row h
  fin_cases h <;> exact hasRow_of_reserved rfl (by decide +kernel)

section
variable {s : State} {f : Operands → Instr} {row : RowConstants} {ops : Operands}

/-- With the default tables a constructor with a row answers what the row's encoder gives. -/
theorem HasRow.answers (h : HasRow f row) (hs : s.cfg.tables = Tables.defaultInstance) {r : BlockResult}
    (hr : encodeRow s.cfg row ops = r) : Answers (f ops) s r := by
  obtain ⟨m, rfl, hrow⟩ := h
  rw [← hs] at hrow
  rw [answers_iff, Mnemonic.instr_mnemonic, Mnemonic.instr_operands, encodeOperands_of_rowOf_some hrow, hr]

/-- Operands the row's encoder does not tell apart are not told apart by the instruction. -/
theorem HasRow.exec_congr (h : HasRow f row) (hs : s.cfg.tables = Tables.defaultInstance) {ops' : Operands}
    (heq : encodeRow s.cfg row ops = encodeRow s.cfg row ops') : exec (f ops) s = exec (f ops') s :=
  (h.answers hs heq).trans (h.answers hs rfl).symm

/-- The clauses shared by classes I, S and SB: what a form of two registers and an immediate answers. -/
theorem HasRow.answers_regsImm (h : HasRow f row) (hs : s.cfg.tables = Tables.defaultInstance) {w : Nat}
    {pack : RegIndex → RegIndex → BitVec w → Word} {n0 n1 : Token} {v : Int}
    (henc : encodeRow s.cfg row ops = encodeRegsImm s.cfg w pack n0 n1 v) :
    (∀ a b, Knows s.cfg n0 a → Knows s.cfg n1 b → Accepts s.cfg w v →
      Answers (f ops) s (.ok (pack a b (BitVec.ofInt w v)))) ∧
    (Unknown s.cfg n0 → Answers (f ops) s (.err .unknownRegister .r0)) ∧
    (∀ a, Knows s.cfg n0 a → Unknown s.cfg n1 → Answers (f ops) s (.err .unknownRegister .r1)) ∧
    (∀ a b, Knows s.cfg n0 a → Knows s.cfg n1 b → ¬ Accepts s.cfg w v →
      Answers (f ops) s (.err .malformedOperand .imm)) :=
  ⟨fun _ _ h0 h1 hv => h.answers hs (henc.trans (encodeRegsImm_ok h0 h1 hv)),
    fun h0 => h.answers hs (henc.trans (encodeRegsImm_unknown0 h0)),
    fun _ h0 h1 => h.answers hs (henc.trans (encodeRegsImm_unknown1 h0 h1)),
    fun _ _ h0 h1 hv => h.answers hs (henc.trans (encodeRegsImm_rejected h0 h1 hv))⟩

end

/-! ## The four classes -/

/-- Settles O2. -/
theorem registerRegisterInstructions : Obligations.RegisterRegisterInstructions := by
  intro s hs row hrow
  have h := hasRow_instrsR row hrow
  refine ⟨fun _ _ _ _ _ _ h0 h1 h2 => h.answers hs (encodeR_of_knows h0 h1 h2),
    fun _ _ _ h0 => h.answers hs (encodeR_unknown0 h0),
    fun _ _ _ _ h0 h1 => h.answers hs (encodeR_unknown1 h0 h1),
    fun _ _ _ _ _ h0 h1 h2 => h.answers hs (encodeR_unknown2 h0 h1 h2),
    fun ops hops => h.answers hs (encodeRow_of_not_fits ?_)⟩
  cases ops with
  | rrr r0 r1 r2 => exact absurd rfl (hops r0 r1 r2)
  | rri | rm | reserved => rfl

/-- Settles O3: both forms are the one encoder on the same parts. -/
theorem immediateAndLoadInstructions : Obligations.ImmediateAndLoadInstructions := by
  intro s hs row hrow
  have h := hasRow_instrsI row hrow
  refine ⟨fun r0 r1 imm ops hops => ?_, fun ops hops => h.answers hs (encodeRow_of_not_fits ?_)⟩
  · obtain rfl | rfl := hops
    · exact h.answers_regsImm hs encodeRow_I_rri
    · exact h.answers_regsImm hs encodeRow_I_rm
  · cases ops with
    | rri r0 r1 imm => exact absurd rfl (hops r0 r1 imm).1
    | rm r0 r1 imm => exact absurd rfl (hops r0 r1 imm).2
    | rrr | reserved => rfl

/-- Settles O4. -/
theorem storeInstructions : Obligations.StoreInstructions := by
  intro s hs row hrow
  have h := hasRow_instrsS row hrow
  refine ⟨fun r0 base offset => h.answers_regsImm hs encodeRow_S_rm,
    fun ops hops => h.answers hs (encodeRow_of_not_fits ?_)⟩
  cases ops with
  | rm r0 base offset => exact absurd rfl (hops r0 base offset)
  | rrr | rri | reserved => rfl

/-- Settles O5. -/
theorem branchInstructions : Obligations.BranchInstructions := by
  intro s hs row hrow
  have h := hasRow_instrsSB row hrow
  refine ⟨fun r0 r1 offset => h.answers_regsImm hs encodeRow_SB_rri,
    fun ops hops => h.answers hs (encodeRow_of_not_fits ?_)⟩
  cases ops with
  | rri r0 r1 offset => exact absurd rfl (hops r0 r1 offset)
  | rrr | rm | reserved => rfl

/-! ## Immediates with one word -/

/-- Immediates accepted alike, with fields packed alike, give one outcome. -/
theorem encodeRegsImm_congr {c : Config} {w : Nat} {pack : RegIndex → RegIndex → BitVec w → Word} {v v' : Int}
    (hacc : Accepts c w v ↔ Accepts c w v') (hpack : ∀ a b, pack a b (BitVec.ofInt w v) = pack a b (BitVec.ofInt w v'))
    (n0 n1 : Token) : encodeRegsImm c w pack n0 n1 v = encodeRegsImm c w pack n0 n1 v' := by
  have hnext : ∀ a b, (withImm c v w fun i => .ok (pack a b i)) = withImm c v' w fun i => .ok (pack a b i) := by
    intro a b
    by_cases h : Accepts c w v
    · rw [withImm_of_some (bin_of_accepts h), withImm_of_some (bin_of_accepts (hacc.mp h)), hpack]
    · rw [withImm_of_none (bin_eq_none h), withImm_of_none (bin_eq_none fun h' => h (hacc.mpr h'))]
  simp only [encodeRegsImm, hnext]

/-- A negative accepted value and the one `2^w` above it are both accepted and have one field (R60, R83). -/
theorem encodeRegsImm_alias {c : Config} {w : Nat} {v : Int} (hlow : -(2 ^ w : Int) ≤ v) (hneg : v < 0)
    (pack : RegIndex → RegIndex → BitVec w → Word) (n0 n1 : Token) :
    encodeRegsImm c w pack n0 n1 v = encodeRegsImm c w pack n0 n1 (v + 2 ^ w) := by
  refine encodeRegsImm_congr (iff_of_true (.inr ⟨hlow, ?_⟩) (.inr ⟨?_, ?_⟩))
    (fun a b => by rw [ofInt_add_two_pow]) n0 n1
  all_goals linarith

/-- Settles O10. -/
theorem aliasingBandsGiveOneWord : Obligations.AliasingBandsGiveOneWord := by
  intro s hs r0 r1 v
  refine ⟨fun hlow hneg row hrow => ?_, fun hlow hneg row hrow => ?_, fun hlow hneg row hrow => ?_⟩
  · have h := hasRow_instrsI row hrow
    exact ⟨h.exec_congr hs (encodeRegsImm_alias (w := 12) hlow hneg ..),
      h.exec_congr hs (encodeRegsImm_alias (w := 12) hlow hneg ..)⟩
  · exact (hasRow_instrsS row hrow).exec_congr hs (encodeRegsImm_alias (w := 12) hlow hneg ..)
  · exact (hasRow_instrsSB row hrow).exec_congr hs (encodeRegsImm_alias (w := 13) hlow hneg ..)

/-- Vectors with the same half differ in bit 0 alone. -/
theorem clear_bit0_of_half_eq {b b' : BitVec 13} (h : b.toNat / 2 = b'.toNat / 2) :
    b &&& ~~~1#13 = b' &&& ~~~1#13 := by
  apply BitVec.eq_of_getLsbD_eq
  intro k hk
  cases k with
  | zero => simp
  | succ k =>
    have hbit : b.getLsbD (k + 1) = b'.getLsbD (k + 1) := by
      rw [BitVec.getLsbD, BitVec.getLsbD, Nat.testBit_succ, Nat.testBit_succ, h]
    simp only [BitVec.getLsbD_and, hbit]

/-- The field of an odd offset and of the even one below it differ in bit 0 alone. -/
theorem ofInt_odd_clear_bit0 {v : Int} (h : v % 2 = 1) :
    BitVec.ofInt 13 v &&& ~~~1#13 = BitVec.ofInt 13 (v - 1) &&& ~~~1#13 := by
  apply clear_bit0_of_half_eq
  simp only [BitVec.toNat_ofInt]
  omega

/-- Settles O9: the range has even ends, so both offsets are accepted or neither, and the packer drops bit 0. -/
theorem oddBranchOffsetAnswersAsTheEvenOneBelow : Obligations.OddBranchOffsetAnswersAsTheEvenOneBelow := by
  intro s hs row hrow r0 r1 offset hodd
  refine (hasRow_instrsSB row hrow).exec_congr hs (encodeRegsImm_congr (or_congr_right ?_) (fun a b => ?_) r0 r1)
  · omega
  · rw [← packSB_clear_bit0, ofInt_odd_clear_bit0 hodd, packSB_clear_bit0]

/-! ## Every instruction, under every table -/

/-- Settles O8. -/
theorem instructionFrame : Obligations.InstructionFrame := by
  intro i s t h
  cases (exec_eq i s).symm.trans h
  exact ⟨rfl, rfl, rfl⟩

/-- The first unknown name among three. -/
theorem encodeR_unknown {c : Config} {f7 opc : BitVec 7} {f3 : BitVec 3} {r0 r1 r2 name : Token} {n : Nat}
    (hn : [r0, r1, r2][n]? = some name) (hunknown : Unknown c name)
    (hfirst : ∀ (m : Nat) (earlier : Token), m < n → [r0, r1, r2][m]? = some earlier → ¬ Unknown c earlier) :
    some (encodeR c f7 f3 opc r0 r1 r2) =
      [BlockResult.err .unknownRegister .r0, .err .unknownRegister .r1, .err .unknownRegister .r2][n]? := by
  match n, hn, hfirst with
  | 0, hn, _ =>
    cases hn
    exact congrArg some (encodeR_unknown0 hunknown)
  | 1, hn, hfirst =>
    cases hn
    obtain ⟨a, h0⟩ := known_iff.mp (hfirst 0 _ (by decide) rfl)
    exact congrArg some (encodeR_unknown1 h0 hunknown)
  | 2, hn, hfirst =>
    cases hn
    obtain ⟨a, h0⟩ := known_iff.mp (hfirst 0 _ (by decide) rfl)
    obtain ⟨b, h1⟩ := known_iff.mp (hfirst 1 _ (by decide) rfl)
    exact congrArg some (encodeR_unknown2 h0 h1 hunknown)
  | _ + 3, hn, _ => cases hn

/-- The first unknown name among two. -/
theorem encodeRegsImm_unknown {c : Config} {w : Nat} {pack : RegIndex → RegIndex → BitVec w → Word} {r0 r1 name : Token}
    {v : Int} {n : Nat} (hn : [r0, r1][n]? = some name) (hunknown : Unknown c name)
    (hfirst : ∀ (m : Nat) (earlier : Token), m < n → [r0, r1][m]? = some earlier → ¬ Unknown c earlier) :
    some (encodeRegsImm c w pack r0 r1 v) =
      [BlockResult.err .unknownRegister .r0, .err .unknownRegister .r1, .err .unknownRegister .r2][n]? := by
  match n, hn, hfirst with
  | 0, hn, _ =>
    cases hn
    exact congrArg some (encodeRegsImm_unknown0 hunknown)
  | 1, hn, hfirst =>
    cases hn
    obtain ⟨a, h0⟩ := known_iff.mp (hfirst 0 _ (by decide) rfl)
    exact congrArg some (encodeRegsImm_unknown1 h0 hunknown)
  | _ + 2, hn, _ => cases hn

/-- Settles O6: the class chooses between three registers and two registers with an immediate; each looks its names up
in order, and the immediate last. -/
theorem errorOrderOfTheBlock : Obligations.ErrorOrderOfTheBlock := by
  intro i s
  refine ⟨_, answers_iff.mpr rfl, (encodeOperands_eq_unknownMnemonic_iff ..).mpr, fun cls hcls => ?_⟩
  obtain ⟨row, hrow, rfl⟩ := rowOf_of_classOf hcls
  rw [encodeOperands_of_rowOf_some hrow]
  refine ⟨encodeRow_of_not_fits, fun hfit => ?_⟩
  obtain ⟨r0, r1, r2, hR, hops⟩ | ⟨n0, n1, v, hnames, hint⟩ := shape_of_fits hfit
  · rw [hops]
    cases row <;> cases hR
    refine ⟨fun n name => encodeR_unknown, fun hknown => ⟨nofun, fun _ => ?_⟩⟩
    obtain ⟨rd, h0⟩ := known_iff.mp (hknown r0 (by simp [Operands.names]))
    obtain ⟨rs1, h1⟩ := known_iff.mp (hknown r1 (by simp [Operands.names]))
    obtain ⟨rs2, h2⟩ := known_iff.mp (hknown r2 (by simp [Operands.names]))
    exact ⟨_, encodeR_of_knows h0 h1 h2⟩
  · obtain ⟨pack, henc⟩ := encodeRow_of_int hfit hnames hint
    rw [henc, hnames, hint]
    refine ⟨fun n name => encodeRegsImm_unknown, fun hknown => ?_⟩
    obtain ⟨a, h0⟩ := known_iff.mp (hknown n0 (by simp))
    obtain ⟨b, h1⟩ := known_iff.mp (hknown n1 (by simp))
    refine ⟨fun v' hv' hrej => ?_, fun hacc => ⟨_, encodeRegsImm_ok h0 h1 (hacc v rfl)⟩⟩
    cases hv'
    exact encodeRegsImm_rejected h0 h1 hrej

/-- The accepted immediates, as `wellFormed` writes them. -/
theorem accepts_iff {c : Config} {w : Nat} {v : Int} :
    Accepts c w v ↔ (c.policy == .truncate || inDomain v w) = true := by
  rw [Bool.or_eq_true, beq_iff_eq, inDomain_iff, Accepts]

/-- `wellFormed` in the terms of R108: a class that takes the form, known names, an accepted immediate. -/
theorem wellFormed_iff {c : Config} {i : Instr} : i.wellFormed c = true ↔
    ∃ cls, c.tables.classOf i.mnemonic.key = some cls ∧ i.operands.fits cls = true ∧
      (∀ name ∈ i.operands.names, ¬ Unknown c name) ∧ ∀ v, i.operands.int = some v → Accepts c cls.immWidth v := by
  cases hcls : c.tables.classOf i.mnemonic.key with
  | none => simp [Instr.wellFormed, Instr.formOk, hcls]
  | some cls =>
    simp [Instr.wellFormed, Instr.formOk, Instr.namesOk, Instr.immOk, hcls, accepts_iff, Unknown, and_assoc,
      Option.ne_none_iff_isSome, Option.all_eq_true]

/-- Settles O7: a word is given for well-formed operands alone, and none of the errors is left for them. -/
theorem wordExactlyWhereWellFormed : Obligations.WordExactlyWhereWellFormed := by
  intro i s
  rw [wellFormed_iff]
  constructor
  · rintro ⟨w, hw⟩
    obtain ⟨row, hrow, henc⟩ := encodeOperands_eq_ok_iff.mp (answers_iff.mp hw)
    exact ⟨row.cls, Tables.classOf_of_rowOf hrow, fits_of_encodes henc,
      fun name hname => known_iff.mpr (knows_of_encodes henc name hname), accepts_of_encodes henc⟩
  · rintro ⟨cls, hcls, hfit, hnames, himm⟩
    obtain ⟨r, hans, -, horder⟩ := errorOrderOfTheBlock i s
    obtain ⟨-, hfits⟩ := horder cls hcls
    obtain ⟨-, hknown⟩ := hfits hfit
    obtain ⟨w, rfl⟩ := (hknown hnames).2 himm
    exact ⟨w, hans⟩

/-! ## Requests -/

/-- Settles O12: the form chooses the fields before anything is looked up. -/
theorem unusedRequestFieldsAreIgnored : Obligations.UnusedRequestFieldsAreIgnored :=
  fun _ _ _ _ _ _ _ _ _ _ => ⟨rfl, rfl, rfl, rfl⟩

/-- Three registers have a word, or one of them is unknown. -/
theorem encodeR_answers (c : Config) (f7 : BitVec 7) (f3 : BitVec 3) (opc : BitVec 7) (n0 n1 n2 : Token) :
    (∃ w, encodeR c f7 f3 opc n0 n1 n2 = .ok w) ∨
      ∃ slot ∈ [Slot.r0, .r1, .r2], encodeR c f7 f3 opc n0 n1 n2 = .err .unknownRegister slot := by
  cases h0 : c.tables.regOf n0 with
  | none => exact .inr ⟨.r0, by simp, encodeR_unknown0 h0⟩
  | some a =>
    cases h1 : c.tables.regOf n1 with
    | none => exact .inr ⟨.r1, by simp, encodeR_unknown1 h0 h1⟩
    | some b =>
      cases h2 : c.tables.regOf n2 with
      | none => exact .inr ⟨.r2, by simp, encodeR_unknown2 h0 h1 h2⟩
      | some d => exact .inl ⟨_, encodeR_of_knows h0 h1 h2⟩

/-- Two registers and an accepted immediate have a word, or a register is unknown. -/
theorem encodeRegsImm_answers {c : Config} {w : Nat} {v : Int} (hacc : Accepts c w v)
    (pack : RegIndex → RegIndex → BitVec w → Word) (n0 n1 : Token) :
    (∃ word, encodeRegsImm c w pack n0 n1 v = .ok word) ∨
      ∃ slot ∈ [Slot.r0, .r1, .r2], encodeRegsImm c w pack n0 n1 v = .err .unknownRegister slot := by
  cases h0 : c.tables.regOf n0 with
  | none => exact .inr ⟨.r0, by simp, encodeRegsImm_unknown0 h0⟩
  | some a =>
    cases h1 : c.tables.regOf n1 with
    | none => exact .inr ⟨.r1, by simp, encodeRegsImm_unknown1 h0 h1⟩
    | some b => exact .inl ⟨_, encodeRegsImm_ok h0 h1 hacc⟩

/-- Settles O13: under `truncate` every immediate is accepted, so past the form only a register can be at fault. -/
theorem truncatePolicyHasNoImmediateError : Obligations.TruncatePolicyHasNoImmediateError := by
  intro c q hpol
  rw [encodeFields]
  cases hrow : c.tables.rowOf q.mn with
  | none => exact .inr (.inl (encodeOperands_of_rowOf_none hrow _))
  | some row =>
    rw [encodeOperands_of_rowOf_some hrow]
    cases hfit : (operandsOf q).fits row.cls with
    | false => exact .inr (.inr (.inl (encodeRow_of_not_fits hfit)))
    | true =>
      refine Or.imp_right (fun h => .inr (.inr h)) ?_
      obtain ⟨r0, r1, r2, hR, hops⟩ | ⟨n0, n1, v, hnames, hint⟩ := shape_of_fits hfit
      · rw [hops]
        cases row <;> cases hR
        exact encodeR_answers ..
      · obtain ⟨pack, henc⟩ := encodeRow_of_int hfit hnames hint
        rw [henc]
        exact encodeRegsImm_answers (.inl hpol) ..

end Sys2Proof.Proofs.Instructions
end

section
/-! The tables: which are accepted (`10_state.md` R24, `30_encoding.md` R61), and what the default ones hold (R25 to
R27, R62 to R66). -/

namespace Sys2Proof.Proofs.TableFacts

open Sys2Proof.Machine Sys2Proof.Proofs.Classifier Sys2Proof.Proofs.Block

/-! ## Tables as maps -/

theorem keysDistinct_iff {α : Type} (table : List (Token × α)) :
    keysDistinct table = true ↔ (table.map (·.1)).Nodup := by
  induction table with
  | nil => simp [keysDistinct]
  | cons row rest ih =>
    simp only [keysDistinct, Bool.and_eq_true, List.all_eq_true, bne_iff_ne, ih, List.map_cons, List.nodup_cons,
      List.mem_map, not_exists, not_and]

theorem isKey_iff (k : Token) : isKey k = true ↔ 1 ≤ k.length ∧ k.length ≤ 8 ∧ ∀ b ∈ k, isNameChar b = true := by
  simp only [isKey, Bool.and_eq_true, Bool.not_eq_true', List.isEmpty_eq_false_iff, decide_eq_true_iff,
    List.all_eq_true, and_assoc, ← List.length_pos_iff]
  rfl

/-- A table holds a key exactly where the lookup answers it. -/
theorem lookup_isSome_iff {α : Type} (table : List (Token × α)) (k : Token) :
    (lookup table k).isSome = true ↔ k ∈ table.map (·.1) := by
  rw [List.mem_map]
  constructor
  · intro h
    obtain ⟨v, hv⟩ := Option.isSome_iff_exists.mp h
    exact ⟨(k, v), mem_of_lookup hv, rfl⟩
  · rintro ⟨⟨k, v⟩, hmem, rfl⟩
    exact lookup_isSome_of_mem hmem

theorem isMap_iff {α : Type} (table : List (Token × α)) :
    isMap table = true ↔ (table.map (·.1)).Nodup ∧
      ∀ k ∈ table.map (·.1), 1 ≤ k.length ∧ k.length ≤ 8 ∧ ∀ b ∈ k, isNameChar b = true := by
  simp only [isMap, Bool.and_eq_true, List.all_eq_true, keysDistinct_iff, ← isKey_iff, List.forall_mem_map]
  exact and_comm

/-- In a map a key is answered with its row and no other (R100). -/
theorem lookup_eq_some_iff {α : Type} {table : List (Token × α)} (h : isMap table = true) (k : Token) (v : α) :
    lookup table k = some v ↔ (k, v) ∈ table := by
  simp only [isMap, Bool.and_eq_true] at h
  exact ⟨mem_of_lookup, lookup_of_mem h.2⟩

/-! ## Accepted tables -/

/-- The invariant of R24 in plain terms. -/
theorem wf_iff (t : Tables) : t.wf = true ↔
    (isMap t.fmt = true ∧ isMap t.opc = true ∧ isMap t.f3 = true ∧ isMap t.f7 = true ∧ isMap t.reg = true) ∧
      ∀ mn cls, (mn, cls) ∈ t.fmt → mn ∈ t.opc.map (·.1) ∧ mn ∈ t.f3.map (·.1) ∧ (cls = .R → mn ∈ t.f7.map (·.1)) := by
  simp only [Tables.wf, Bool.and_eq_true, List.all_eq_true, constantsOf_isSome_iff, lookup_isSome_iff, and_assoc,
    Prod.forall]

section
variable {t : Tables} {mn : Token} {f7 opc : BitVec 7} {f3 : BitVec 3}

/-- A mnemonic has a row of class R exactly where the four tables hold its parts (R100, R103). -/
theorem rowOf_eq_R_iff : t.rowOf mn = some (.R f7 f3 opc) ↔
    lookup t.fmt mn = some .R ∧ lookup t.opc mn = some opc ∧ lookup t.f3 mn = some f3 ∧ lookup t.f7 mn = some f7 := by
  constructor
  · intro h
    have hcls := Tables.classOf_of_rowOf h
    simp only [Tables.rowOf, hcls, RowConstants.cls, Tables.constantsOf, Option.bind_eq_bind, Option.bind_some,
      Option.bind_eq_some_iff, Option.some.injEq] at h
    obtain ⟨_, h7, _, h3, _, hopc, heq⟩ := h
    cases heq
    exact ⟨hcls, hopc, h3, h7⟩
  · rintro ⟨hcls, hopc, h3, h7⟩
    simp [Tables.rowOf, Tables.classOf, Tables.constantsOf, hcls, hopc, h3, h7]

theorem rowOf_eq_I_iff : t.rowOf mn = some (.I f3 opc) ↔
    lookup t.fmt mn = some .I ∧ lookup t.opc mn = some opc ∧ lookup t.f3 mn = some f3 := by
  constructor
  · intro h
    have hcls := Tables.classOf_of_rowOf h
    simp only [Tables.rowOf, hcls, RowConstants.cls, Tables.constantsOf, Option.bind_eq_bind, Option.bind_some,
      Option.bind_eq_some_iff, Option.some.injEq] at h
    obtain ⟨_, h3, _, hopc, heq⟩ := h
    cases heq
    exact ⟨hcls, hopc, h3⟩
  · rintro ⟨hcls, hopc, h3⟩
    simp [Tables.rowOf, Tables.classOf, Tables.constantsOf, hcls, hopc, h3]

end

/-- What the source fixes of Tier S (R62), as rows of tables that are maps. -/
theorem containsTierS_iff {t : Tables} (h : t.wf = true) : t.containsTierS = true ↔
    ((Mnemonic.key .add, FormatClass.R) ∈ t.fmt ∧ (Mnemonic.key .add, 0b0110011#7) ∈ t.opc ∧
      (Mnemonic.key .add, 0b000#3) ∈ t.f3 ∧ (Mnemonic.key .add, 0b0000000#7) ∈ t.f7) ∧
    ((Mnemonic.key .addi, FormatClass.I) ∈ t.fmt ∧ (Mnemonic.key .addi, 0b0010011#7) ∈ t.opc ∧
      (Mnemonic.key .addi, 0b000#3) ∈ t.f3) ∧
    ((Mnemonic.key .lw, FormatClass.I) ∈ t.fmt ∧ (Mnemonic.key .lw, 0b0000011#7) ∈ t.opc ∧
      (Mnemonic.key .lw, 0b010#3) ∈ t.f3) ∧
    (Mnemonic.key .sw, FormatClass.S) ∈ t.fmt ∧ (Mnemonic.key .beq, FormatClass.SB) ∈ t.fmt := by
  obtain ⟨⟨hfmt, hopc, hf3, hf7, -⟩, -⟩ := (wf_iff t).mp h
  simp only [Tables.containsTierS, Bool.and_eq_true, beq_iff_eq, and_assoc, rowOf_eq_R_iff, rowOf_eq_I_iff,
    Tables.classOf, lookup_eq_some_iff hfmt, lookup_eq_some_iff hopc, lookup_eq_some_iff hf3, lookup_eq_some_iff hf7]
  exact Iff.rfl

/-- A configuration is made, of the tables and policy as they are, exactly where both conditions hold (R24, R61). -/
theorem exists_ofTables_iff (t : Tables) (p : OverflowPolicy) :
    (∃ c, Config.ofTables t p = some c ∧ c.tables = t ∧ c.policy = p) ↔ t.wf = true ∧ t.containsTierS = true := by
  constructor
  · rintro ⟨c, -, rfl, -⟩
    exact ⟨c.wf, c.tierS⟩
  · exact fun h => ⟨⟨t, p, h.1, h.2⟩, dif_pos h, rfl, rfl⟩

/-- Settles O17. -/
theorem illFormedTablesAreRefused : Obligations.IllFormedTablesAreRefused := by
  intro t p
  rw [exists_ofTables_iff, and_congr_right containsTierS_iff, wf_iff]
  simp only [isMap_iff, List.forall_mem_append]
  tauto

/-! ## The default tables -/

/-- A table whose rows with a value are those of a list of keys answers that value exactly on the list. -/
theorem classOf_eq_some_iff {t : Tables} {cls : FormatClass} {keys : List Token}
    (hrows : ∀ row ∈ t.fmt, row.2 = cls → row.1 ∈ keys) (hkeys : ∀ k ∈ keys, t.classOf k = some cls) (mn : Token) :
    t.classOf mn = some cls ↔ mn ∈ keys :=
  ⟨fun h => hrows _ (mem_of_lookup h) rfl, hkeys mn⟩

/-- Settles O15. -/
theorem classifierOfTheDefaultInstance : Obligations.ClassifierOfTheDefaultInstance := by
  intro s mn rest hs hin
  refine ⟨_, Tables.defaultInstance.classOf mn, step_cons hin, ?_, rfl, ?_, ?_, ?_, ?_⟩
  · rw [← hs]; rfl
  all_goals exact classOf_eq_some_iff (by decide +kernel) (by decide +kernel) mn

/-- Settles O18. -/
theorem registerNamesOfTheDefaultInstance : Obligations.RegisterNamesOfTheDefaultInstance := by
  refine ⟨RoundTrip.knows_xName, ?_, ?_, ?_, ?_⟩
  · unfold Knows; decide +kernel
  · decide +kernel
  · decide +kernel
  · unfold Unknown; decide +kernel

/-- The rows of the restricted tables are rows of the default ones. -/
theorem rowOf_sourceOnly {mn : Token} {row : RowConstants} (h : Tables.sourceOnly.rowOf mn = some row) :
    Tables.defaultInstance.rowOf mn = some row := by
  have hrows : ∀ entry ∈ Tables.sourceOnly.fmt,
      Tables.sourceOnly.rowOf entry.1 = Tables.defaultInstance.rowOf entry.1 := by decide +kernel
  rw [← hrows _ (mem_of_lookup (Tables.classOf_of_rowOf h)), h]

/-- So are their register names. -/
theorem regOf_sourceOnly {name : Token} {r : RegIndex} (h : Tables.sourceOnly.regOf name = some r) :
    Tables.defaultInstance.regOf name = some r := by
  have hrows : ∀ entry ∈ Tables.sourceOnly.reg, Tables.defaultInstance.regOf entry.1 = some entry.2 := by
    decide +kernel
  exact hrows _ (mem_of_lookup h)

/-- Settles O19: more rows and more names under one policy. -/
theorem sourceOnlyWordsAreDefaultWords : Obligations.SourceOnlyWordsAreDefaultWords :=
  fun _ _ => encodeOperands_ok_mono (c := .sourceOnly) (c' := .defaultInstance) (fun _ _ => rowOf_sourceOnly)
    (fun _ _ => regOf_sourceOnly) (fun _ _ => id)

/-! ## Words written out -/

/-- Settles O25. -/
theorem writtenOutWordsDecode : Obligations.WrittenOutWordsDecode :=
  ⟨rfl, rfl, rfl, rfl, rfl⟩

end Sys2Proof.Proofs.TableFacts
end

section
/-! The formatter outside its domain and what its fields read back as (`40_front_end.md` R82, R83). -/

namespace Sys2Proof.Proofs.FormatterBands

open Sys2Proof.Machine Sys2Proof.Proofs.FrontEnd Sys2Proof.Proofs.Block

/-- Settles O22. -/
theorem formatterOutsideTheDomain : Obligations.FormatterOutsideTheDomain := by
  intro w v _ hout
  have hdom : inDomain v w = false := by
    rw [← Bool.not_eq_true, inDomain_iff]
    rintro ⟨hlow, hhigh⟩
    obtain hout | hout := hout <;> linarith
  exact ⟨bin_error_of_not_inDomain hdom, BitVec.ofInt w v, bin_truncate v w, toNat_ofInt_cast w v⟩

/-- A vector reads back as the one integer in its range that is congruent to what was written. -/
theorem toInt_ofInt_of_congr {w : Nat} (hw : 0 < w) {v u : Int} (hlow : -(2 ^ (w - 1) : Int) ≤ u)
    (hhigh : u < 2 ^ (w - 1)) (hcongr : BitVec.ofInt w v = BitVec.ofInt w u) : (BitVec.ofInt w v).toInt = u := by
  rw [hcongr, BitVec.toInt_ofInt_eq_self hw hlow hhigh]

/-- Settles O23: in each band the value named is in the field's signed range and congruent to `v`. -/
theorem formatterReadsBack : Obligations.FormatterReadsBack := by
  intro p w v b hw hbin
  cases eq_ofInt_of_bin hbin
  have hdouble : (2 : Int) ^ w = 2 * 2 ^ (w - 1) := by rw [← pow_succ', Nat.sub_add_cancel hw]
  have hpos : (0 : Int) < 2 ^ (w - 1) := by positivity
  refine ⟨fun hlow hhigh => toInt_ofInt_of_congr hw hlow hhigh rfl, fun hlow hhigh => ?_, fun hlow hhigh => ?_⟩
  · refine toInt_ofInt_of_congr hw (by linarith) (by linarith) ?_
    rw [← ofInt_add_two_pow w (v - 2 ^ w), sub_add_cancel]
  · refine toInt_ofInt_of_congr hw (by linarith) (by linarith) ?_
    rw [ofInt_add_two_pow]

end Sys2Proof.Proofs.FormatterBands
end

section
/-! The step: what it answers, keeps and hands back, and runs over all inputs (`10_state.md` R46,
`60_exceptions.md` R196 to R201, `70_reset_and_hazards.md` R210 to R217). -/

namespace Sys2Proof.Proofs.Steps

open Sys2Proof.Machine Sys2Proof.Proofs.Block

/-- Settles O32. -/
theorem everyStepAnswers : Obligations.EveryStepAnswers := by
  refine fun s => ⟨?_, fun i => ⟨_, answers_iff.mpr rfl⟩⟩
  cases h : s.inputs with
  | nil => exact ⟨_, step_nil h⟩
  | cons x rest => exact ⟨_, step_cons h⟩

/-- Settles O33. -/
theorem stepFrame : Obligations.StepFrame := by
  intro s t hstep
  cases hin : s.inputs with
  | nil =>
    cases (step_nil hin).symm.trans hstep
    exact ⟨rfl, hin, fun _ => ⟨rfl, rfl⟩, fun hne => absurd rfl hne⟩
  | cons x rest =>
    cases (step_cons hin).symm.trans hstep
    exact ⟨rfl, rfl, nofun, fun _ => ⟨_, rfl⟩⟩

/-- Settles O34: the outcome and the response are functions of the parameters and the input. -/
theorem outcomeIndependentOfHistory : Obligations.OutcomeIndependentOfHistory := by
  intro s s' t t' x rest rest' hcfg hin hin' hstep hstep'
  cases (step_cons hin).symm.trans hstep
  cases (step_cons hin').symm.trans hstep'
  refine ⟨outcome s.cfg x, rfl, ?_, ?_⟩
  · simp [hcfg]
  · simp [hcfg]

theorem run_succ (n : Nat) {s t : State} (h : step s = .next t) : core.run (n + 1) s = core.run n t := by
  have hstep : core.step s = .next t := h
  simp only [Host.Core.run, hstep]

/-- As many steps as inputs answer each input with its own outcome, in order. -/
theorem run_inputs (xs : List Input) : ∀ s : State, s.inputs = xs → ∃ t : State, core.run xs.length s = .next t ∧
    t.inputs = [] ∧ t.cfg = s.cfg ∧ t.outputs = s.outputs ++ xs.map (outcome s.cfg) := by
  induction xs with
  | nil => exact fun s hin => ⟨s, rfl, hin, rfl, by simp⟩
  | cons x rest ih =>
    intro s hin
    obtain ⟨t, hrun, hinputs, hcfg, houts⟩ := ih ((s.advance rest).answered x) rfl
    exact ⟨t, (run_succ _ (step_cons hin)).trans hrun, hinputs, hcfg, by simpa using houts⟩

/-- Settles O35. -/
theorem runAnswersEveryInputInOrder : Obligations.RunAnswersEveryInputInOrder := fun s => run_inputs s.inputs s rfl

/-- Settles O38. -/
theorem resetHoldsTheParametersAndNothingElse : Obligations.ResetHoldsTheParametersAndNothingElse :=
  ⟨rfl, rfl, rfl, rfl, rfl⟩

/-! ## The instruction an input asks for -/

theorem runRequest_of_instrOf {q : HwReq} {i : Instr} (h : instrOf q = some i) (s : State) :
    runRequest q s = exec i s := by rw [runRequest, h]

theorem andEmit_of_resp {u : State} {r : BlockResult} (h : u.resp = some r) (out : BlockResult → Output) :
    andEmit (.next u) out = .next (u.emit (out r)) := by simp [andEmit, h]

theorem step_of_inputs {s : State} {x : Input} {rest : List Input} (h : s.inputs = x :: rest) :
    step s = evaluate x (s.advance rest) := by simp only [step, h]

/-- A request that asks for an instruction runs it, and the host is handed the block's outcome. -/
theorem step_request {s u : State} {rest : List Input} {i : Instr} {r : BlockResult} {q : HwReq}
    (hexec : exec i (s.advance rest) = .next u) (hresp : u.resp = some r) (hin : s.inputs = .request q :: rest)
    (hq : instrOf q = some i) : step s = .next (u.emit (.block r)) := by
  rw [step_of_inputs hin, evaluate, evaluateRequest, runRequest_of_instrOf hq, hexec, andEmit_of_resp hresp]

/-- Settles O30. -/
theorem stepRunsTheRequestedInstruction : Obligations.StepRunsTheRequestedInstruction := by
  intro s u rest i r hexec hresp
  refine ⟨fun q hin hq => step_request hexec hresp hin hq, fun l q ops hin hfront hq => ?_,
    fun p hin hvalid hq => ?_, fun nbits w hin hword => ?_⟩
  · rw [step_of_inputs hin, evaluate, evaluateLine, State.advance_cfg, hfront]
    simp only [runRequest_of_instrOf hq, hexec, andEmit_of_resp hresp]
  · rw [step_of_inputs hin, evaluate, evaluateWires, if_pos hvalid, runRequest_of_instrOf hq, hexec,
      andEmit_of_resp hresp, State.advance_cfg]
  · rw [State.withFetchWord, hword, hin]
    exact step_request hexec hresp rfl (instrOf_requestOf i)

end Sys2Proof.Proofs.Steps
end

section
/-! The shell's output: the diagnostic line, and one line of the output file for each line of the input file
(`60_exceptions.md` R199 to R201). -/

namespace Sys2Proof.Proofs.ShellOutput

open Sys2Proof.Machine Sys2Proof.Proofs.Classifier Sys2Proof.Proofs.FrontEnd Sys2Proof.Proofs.Normaliser
  Sys2Proof.Proofs.TokenGrammar Sys2Proof.Proofs.TextContract Sys2Proof.Proofs.Steps

/-! ## The diagnostic line -/

theorem occursIn_iff {t : Token} {l : Line} : occursIn t l = true ↔ t <:+: l := by
  simp only [occursIn, List.any_eq_true, List.mem_tails, List.isPrefixOf_iff_prefix, List.infix_iff_prefix_suffix,
    and_comm]

theorem bitString_chars (w : Word) : ∀ b ∈ bitString w, b = ascii '0' ∨ b = ascii '1' := by
  intro b hb
  obtain ⟨k, -, rfl⟩ := List.mem_map.mp hb
  cases w.getLsbD (32 - 1 - k)
  · exact .inl rfl
  · exact .inr rfl

theorem looksLikeWord_bitString (w : Word) : looksLikeWord (bitString w) = true := by
  simpa [looksLikeWord] using bitString_chars w

/-- The constraints of R200, one by one. -/
theorem diagAllowed_iff {e : EncodeError} {l : Line} : diagAllowed e l = true ↔
    newline ∉ l ∧ l ≠ [] ∧ looksLikeWord l = false ∧ (e.kind = .malformedOperand ∨ e.tok <:+: l) := by
  simp [diagAllowed, and_assoc, occursIn_iff]

/-- The fixed text meets the constraints: it starts with `e`, which no word does. -/
theorem diagAllowed_diagMarker {e : EncodeError} (h : newline ∉ e.tok) : diagAllowed e (diagMarker e) = true := by
  have hstart : ascii 'e' ≠ ascii '0' ∧ ascii 'e' ≠ ascii '1' := by decide
  have hfixed : newline ∉ tok ['e', 'r', 'r', 'o', 'r', ' '] := by decide
  rw [diagAllowed_iff]
  refine ⟨?_, by simp [diagMarker, tok], by simp [looksLikeWord, diagMarker, tok, hstart], ?_⟩
  · unfold diagMarker
    split
    · simpa using hfixed
    · exact List.not_mem_append hfixed h
  · by_cases hkind : e.kind = .malformedOperand
    · exact .inl hkind
    · exact .inr (by simpa [diagMarker, hkind] using (List.suffix_append _ e.tok).isInfix)

theorem diagAllowed_diag {e : EncodeError} (h : newline ∉ e.tok) : diagAllowed e (diag e) = true := by
  unfold diag
  split
  · assumption
  · exact diagAllowed_diagMarker h

/-- Settles O53: the line is the open text where it meets the constraints, and the fixed one where it does not. -/
theorem diagnosticLineKeepsItsConstraints : Obligations.DiagnosticLineKeepsItsConstraints := by
  intro e h
  obtain ⟨hline, hne, hword, htok⟩ := diagAllowed_iff.mp (diagAllowed_diag h)
  refine ⟨hline, hne, fun ⟨w, hw⟩ => ?_, htok.resolve_left⟩
  rw [hw, looksLikeWord_bitString] at hword
  cases hword

/-! ## The tokens of errors -/

/-- What a line's tokens become: nothing, an error with one of them or none, or a request of them and of a NAME cut
from one of them (R90, R92, R194). -/
inductive MadeOf (ts : List Token) : Parsed → Prop
  | blank : MadeOf ts .blank
  | fail {kind token} (h : token = [] ∨ token ∈ ts) : MadeOf ts (.fail kind token)
  | request {q kept} (hkept : ∀ t ∈ kept, t ∈ ts)
      (hparts : ∀ t ∈ [q.mn, q.r0, q.r1, q.r2], t = [] ∨ t ∈ ts ∨ isName t = true) : MadeOf ts (.request q kept)

section
variable (mn : Token) (ops : List Token)

theorem madeOf_parseR : MadeOf (mn :: ops) (parseR mn ops) := by
  unfold parseR
  split
  · exact .request (fun _ => List.mem_cons_of_mem _) (by simp)
  · exact .fail (.inl rfl)

theorem madeOf_parseMemForm : MadeOf (mn :: ops) (parseMemForm mn ops) := by
  unfold parseMemForm
  split
  · split
    · rename_i hparse
      obtain ⟨-, -, -, hname⟩ := (memoryReferenceGrammar _ _ _).mp hparse
      exact .request (fun _ => List.mem_cons_of_mem _) (by simp [isName_iff.mpr hname])
    · exact .fail (.inr (by simp))
  · exact .fail (.inl rfl)

theorem madeOf_parseIntForm : MadeOf (mn :: ops) (parseIntForm mn ops) := by
  unfold parseIntForm
  split
  · split
    · exact .request (fun _ => List.mem_cons_of_mem _) (by simp)
    · exact .fail (.inr (by simp))
  · exact .fail (.inl rfl)

theorem madeOf_parseOperands (cls : FormatClass) : MadeOf (mn :: ops) (parseOperands cls mn ops) := by
  cases cls with
  | R => exact madeOf_parseR mn ops
  | I =>
    rw [parseOperands]
    split
    · exact madeOf_parseMemForm mn ops
    · exact madeOf_parseIntForm mn ops
  | S => exact madeOf_parseMemForm mn ops
  | SB => exact madeOf_parseIntForm mn ops

end

theorem madeOf_frontEnd (c : Config) (l : Line) : MadeOf (normalise l) (frontEnd c l) := by
  cases hl : normalise l with
  | nil => rw [frontEnd_eq_blank_iff.mpr hl]; exact .blank
  | cons mn ops =>
    cases hcls : c.tables.classOf mn with
    | none => rw [frontEnd_of_classOf_none hl hcls]; exact .fail (.inr List.mem_cons_self)
    | some cls => rw [frontEnd_of_classOf hl hcls]; exact madeOf_parseOperands mn ops cls

theorem newline_notMem_of_plain {t : Token} (h : PlainToken t) : newline ∉ t := fun hmem =>
  absurd (h.2 newline hmem).1 (by decide)

theorem newline_notMem_of_isName {t : Token} (h : isName t = true) : newline ∉ t := fun hmem =>
  absurd ((isName_iff.mp h).2 newline hmem) (by decide)

/-- The token of a slot is one of the request's, or one of the operand tokens kept, or empty (R194). -/
theorem slotToken_cases (q : HwReq) (ops : List Token) (slot : Slot) :
    slotToken q ops slot ∈ [q.mn, q.r0, q.r1, q.r2] ∨ slotToken q ops slot = [] ∨ slotToken q ops slot ∈ ops := by
  have hkept : ∀ n, ops.getD n [] = [] ∨ ops.getD n [] ∈ ops := fun n => by
    rw [List.getD_eq_getElem?_getD]
    cases hn : ops[n]? with
    | none => exact .inl rfl
    | some t => exact .inr (List.mem_of_getElem? hn)
  cases slot with
  | mn | r0 | r1 | r2 => exact .inl (by simp [slotToken])
  | form => exact .inr (.inl rfl)
  | imm =>
    obtain ⟨mn, form, r0, r1, r2, imm⟩ := q
    cases form with
    | rm => exact .inr (hkept 1)
    | rri => exact .inr (hkept 2)
    | rrr | reserved => exact .inr (.inl rfl)

/-- What is made of tokens without newlines reports no token with a newline. -/
theorem newline_notMem_of_madeOf {ts : List Token} {parsed : Parsed} (h : MadeOf ts parsed)
    (hts : ∀ t ∈ ts, newline ∉ t) :
    (∀ kind token, parsed = .fail kind token → newline ∉ token) ∧
      ∀ q kept slot, parsed = .request q kept → newline ∉ slotToken q kept slot := by
  cases h with
  | blank => exact ⟨nofun, nofun⟩
  | fail htoken =>
    refine ⟨fun kind token heq => ?_, nofun⟩
    cases heq
    obtain rfl | hmem := htoken
    · exact List.not_mem_nil
    · exact hts _ hmem
  | @request q kept hkept hparts =>
    refine ⟨nofun, fun q' kept' slot heq => ?_⟩
    cases heq
    obtain hpart | hnil | hmem := slotToken_cases q kept slot
    · obtain hnil | hmem | hname := hparts _ hpart
      · rw [hnil]; exact List.not_mem_nil
      · exact hts _ hmem
      · exact newline_notMem_of_isName hname
    · rw [hnil]; exact List.not_mem_nil
    · exact hts _ (hkept _ hmem)

/-- An error of a line carries the token the front end or the block's slot names. -/
theorem tok_of_encodeInstruction_err {c : Config} {l : Line} {e : EncodeError} (h : encodeInstruction c l = .err e) :
    frontEnd c l = .fail e.kind e.tok ∨ ∃ q ops slot, frontEnd c l = .request q ops ∧ e.tok = slotToken q ops slot := by
  cases hf : frontEnd c l with
  | blank => rw [(encodeInstruction_eq_nil_iff c l).mpr hf] at h; cases h
  | fail kind token =>
    rw [encodeInstruction_of_fail hf] at h
    cases h
    exact .inl rfl
  | request q ops =>
    rw [encodeInstruction_of_request hf] at h
    cases hr : encodeFields c q with
    | ok w => rw [hr] at h; cases h
    | err kind slot =>
      rw [hr] at h
      cases h
      exact .inr ⟨q, ops, slot, rfl, rfl⟩

/-- No error of a line has a newline in its token: a token is made of the line's characters that are no whitespace. -/
theorem newline_notMem_tok {c : Config} {l : Line} {e : EncodeError} (h : encodeInstruction c l = .err e) :
    newline ∉ e.tok := by
  have hplain : ∀ t ∈ normalise l, newline ∉ t := fun _ ht => newline_notMem_of_plain (plainToken_of_mem_normalise ht)
  obtain ⟨hfail, hrequest⟩ := newline_notMem_of_madeOf (madeOf_frontEnd c l) hplain
  obtain hf | ⟨q, kept, slot, hf, htok⟩ := tok_of_encodeInstruction_err h
  · exact hfail _ _ hf
  · rw [htok]
    exact hrequest q kept slot hf

/-! ## The output file -/

theorem newline_notMem_outputLine (c : Config) (l : Line) : newline ∉ outputLine (encodeInstruction c l) := by
  cases hl : encodeInstruction c l with
  | ok text =>
    obtain ⟨-, rfl⟩ | ⟨q, ops, w, -, -, rfl⟩ := (encodeInstruction_eq_ok_iff c l text).mp hl
    · exact List.not_mem_nil
    · intro hmem
      obtain h | h := bitString_chars w newline hmem <;> exact absurd h (by decide)
  | err e => exact (diagnosticLineKeepsItsConstraints e (newline_notMem_tok hl)).1

/-- Settles O54: each line of the output ends in its only newline. -/
theorem outputFileStaysAligned : Obligations.OutputFileStaysAligned := by
  intro c lines
  have hone : ∀ l : Line, (outputLine (encodeInstruction c l) ++ [newline]).count newline = 1 := fun l => by
    rw [List.count_append, List.count_eq_zero.mpr (newline_notMem_outputLine c l), List.count_singleton_self]
  induction lines with
  | nil => rfl
  | cons l rest ih =>
    have hcons : shellRun c (l :: rest) = (outputLine (encodeInstruction c l) ++ [newline]) ++ shellRun c rest := rfl
    rw [hcons, List.count_append, hone, ih, List.length_cons, Nat.add_comm]

/-- Settles O55: the run hands back the outcome of every line, in order. -/
theorem runOverAFileGivesItsOutput : Obligations.RunOverAFileGivesItsOutput := by
  intro s lines hin hout
  obtain ⟨t, hrun, -, -, houts⟩ := run_inputs (lines.map .line) s hin
  refine ⟨t, by rwa [List.length_map] at hrun, ?_⟩
  have htext : t.textResults = lines.map (encodeInstruction s.cfg) := by
    rw [State.textResults, houts, hout]
    simp [Function.comp_def, outcome]
  rw [htext, shellRun]

end Sys2Proof.Proofs.ShellOutput
end
